-- ==== Sys2Proof/Word.lean ====
section
/-! DEFINITION. The word types of the machine and nothing else (spec/00_scope.md R7; spec/30_encoding.md R71, R73).
Every value is unsigned and bit 0 is the least significant bit. -/

namespace Sys2Proof

/-- `u8`: a byte of memory, a general register, a timer, an 8-bit immediate `NN` (R7). -/
abbrev Byte := BitVec 8

/-- `u16`: an instruction word, the program counter, the address register, a return address (R7, R23, R24, R26). -/
abbrev Word := BitVec 16

/-- The 12-bit address immediate `NNN` (R71). -/
abbrev Addr12 := BitVec 12

/-- A 4-bit field: the sprite height `N`, a sub-opcode, a key index (R71). -/
abbrev Nibble := BitVec 4

/-- A register field `X` or `Y`: every 4-bit value names a register (R71, R73). -/
abbrev RegIdx := BitVec 4

/-- `VF` is `V[15]`, the flags register (spec/10_state.md R22). -/
abbrev vf : RegIdx := 15

end Sys2Proof
end

