-- ==== Sys2Proof/Config.lean ====
section
/-! DEFINITION. The construction parameters of spec/00_scope.md R5, with the values the spec decides, and the one
free value of the machine, the random byte. -/

namespace Sys2Proof

/-- `SHIFT_QUIRK` (R5, OPEN, D14): the two-register form shifts `V[y]`, the single-register form shifts `V[x]`. -/
inductive ShiftQuirk where
  | legacy
  | inPlace
deriving DecidableEq, Repr

/-- `ADD_IMM_FLAG` (R5, D11): whether `ADD Vx, NN` writes its carry to `VF`. -/
inductive AddImmFlag where
  | unchanged
  | carry
deriving DecidableEq, Repr

/-- The parameters fixed at construction (R5). `NUM_REGS` = `NUM_KEYS` = 16 stand in the types; `TIMER_HZ` and `IPS`
are timing that no rule depends on (R318, R319). -/
structure Config where
  memSize      : Nat
  stackDepth   : Nat
  fbW          : Nat
  fbH          : Nat
  loadOffset   : Word
  fontBase     : Word
  font         : Vector Byte 80
  shiftQuirk   : ShiftQuirk
  loadStoreInc : Bool
  addImmFlag   : AddImmFlag
deriving DecidableEq, Repr

namespace Config

/-- Glyphs 0 to 7 of spec/70_reset_and_hazards.md R303, five bytes each. -/
def glyphs0to7 : List (List Byte) :=
  [[0xF0, 0x90, 0x90, 0x90, 0xF0],
   [0x20, 0x60, 0x20, 0x20, 0x70],
   [0xF0, 0x10, 0xF0, 0x80, 0xF0],
   [0xF0, 0x10, 0xF0, 0x10, 0xF0],
   [0x90, 0x90, 0xF0, 0x10, 0x10],
   [0xF0, 0x80, 0xF0, 0x10, 0xF0],
   [0xF0, 0x80, 0xF0, 0x90, 0xF0],
   [0xF0, 0x10, 0x20, 0x40, 0x40]]

/-- Glyphs 8 to F of R303. -/
def glyphs8toF : List (List Byte) :=
  [[0xF0, 0x90, 0xF0, 0x90, 0xF0],
   [0xF0, 0x90, 0xF0, 0x10, 0xF0],
   [0xF0, 0x90, 0xF0, 0x90, 0x90],
   [0xE0, 0x90, 0xE0, 0x90, 0xE0],
   [0xF0, 0x80, 0x80, 0x80, 0xF0],
   [0xE0, 0x90, 0x90, 0x90, 0xE0],
   [0xF0, 0x80, 0xF0, 0x80, 0xF0],
   [0xF0, 0x80, 0xF0, 0x80, 0x80]]

/-- The decided glyph table `FONT` (R5, D5, R303). -/
def decidedFont : Vector Byte 80 :=
  ⟨(glyphs0to7 ++ glyphs8toF).flatten.toArray, by decide⟩

/-- The parameters at their decided values (R5), for given values of the two OPEN switches. -/
def decided (shiftQuirk : ShiftQuirk) (loadStoreInc : Bool) : Config where
  memSize      := 4096
  stackDepth   := 16
  fbW          := 64
  fbH          := 32
  loadOffset   := 0x200
  fontBase     := 0x000
  font         := decidedFont
  shiftQuirk   := shiftQuirk
  loadStoreInc := loadStoreInc
  addImmFlag   := .unchanged

/-- The configuration of `State.reset`. The two OPEN switches have no default in the spec (D14, D15); the values here
are the model's. DESIGN CHOICE, unsafe: notes/assumptions/2.md. -/
def atReset : Config := decided .inPlace false

/-- The free byte `Random8` of the n-th drawing (spec/40_fetch_dispatch.md R100, spec/44_io.md R240: "any 8-bit value,
chosen afresh at every execution, under no law"). It has no body that a proof can see. DESIGN CHOICE (its form):
notes/assumptions/4.md. -/
opaque random8 : Nat → Byte

end Config

end Sys2Proof
end

