-- ==== Sys2Proof/Syntax.lean ====
section
/-! DEFINITION. The instructions of spec/opcode_table.json, one constructor a row, with the operands of
spec/30_encoding.md R77. -/

namespace Sys2Proof

/-- The 34 instruction variants of R76 and R77, in the order of the opcode map R80. -/
inductive Instr where
  /-- `CLS`, 00E0 (R230). -/
  | cls
  /-- `RET`, 00EE (R173). -/
  | ret
  /-- `JP NNN`, 1NNN (R174). -/
  | jp (nnn : Addr12)
  /-- `CALL NNN`, 2NNN (R175). -/
  | call (nnn : Addr12)
  /-- `SE Vx, NN`, 3XNN (R177). -/
  | seImm (x : RegIdx) (nn : Byte)
  /-- `SNE Vx, NN`, 4XNN (R178). -/
  | sneImm (x : RegIdx) (nn : Byte)
  /-- `SE Vx, Vy`, 5XY0 (R179). -/
  | seReg (x y : RegIdx)
  /-- `LD Vx, NN`, 6XNN (R135). -/
  | ldImm (x : RegIdx) (nn : Byte)
  /-- `ADD Vx, NN`, 7XNN (R136). -/
  | addImm (x : RegIdx) (nn : Byte)
  /-- `LD Vx, Vy`, 8XY0 (R137). -/
  | ldReg (x y : RegIdx)
  /-- `OR Vx, Vy`, 8XY1 (R138). -/
  | orReg (x y : RegIdx)
  /-- `AND Vx, Vy`, 8XY2 (R139). -/
  | andReg (x y : RegIdx)
  /-- `XOR Vx, Vy`, 8XY3 (R140). -/
  | xorReg (x y : RegIdx)
  /-- `ADD Vx, Vy`, 8XY4 (R141). -/
  | addReg (x y : RegIdx)
  /-- `SUB Vx, Vy`, 8XY5 (R142). -/
  | sub (x y : RegIdx)
  /-- `SHR Vx, Vy`, 8XY6 (R144). It carries `y` under both shift forms (R77). -/
  | shr (x y : RegIdx)
  /-- `SUBN Vx, Vy`, 8XY7 (R143). -/
  | subn (x y : RegIdx)
  /-- `SHL Vx, Vy`, 8XYE (R145). It carries `y` under both shift forms (R77). -/
  | shl (x y : RegIdx)
  /-- `SNE Vx, Vy`, 9XY0 (R180). -/
  | sneReg (x y : RegIdx)
  /-- `LD I, NNN`, ANNN (R201). -/
  | ldI (nnn : Addr12)
  /-- `JP V0, NNN`, BNNN (R176). -/
  | jpV0 (nnn : Addr12)
  /-- `RND Vx, NN`, CXNN (R240). -/
  | rnd (x : RegIdx) (nn : Byte)
  /-- `DRW Vx, Vy, N`, DXYN (R232). -/
  | drw (x y : RegIdx) (n : Nibble)
  /-- `SKP Vx`, EX9E (R234). -/
  | skp (x : RegIdx)
  /-- `SKNP Vx`, EXA1 (R235). -/
  | sknp (x : RegIdx)
  /-- `LD Vx, DT`, FX07 (R237). -/
  | ldVxDt (x : RegIdx)
  /-- `LD Vx, K`, FX0A (R236). -/
  | ldVxK (x : RegIdx)
  /-- `LD DT, Vx`, FX15 (R238). -/
  | ldDtVx (x : RegIdx)
  /-- `LD ST, Vx`, FX18 (R239). -/
  | ldStVx (x : RegIdx)
  /-- `ADD I, Vx`, FX1E (R202). -/
  | addI (x : RegIdx)
  /-- `LD F, Vx`, FX29 (R203). -/
  | ldF (x : RegIdx)
  /-- `LD B, Vx`, FX33 (R204). -/
  | ldB (x : RegIdx)
  /-- `LD [I], Vx`, FX55 (R205). -/
  | ldMemVx (x : RegIdx)
  /-- `LD Vx, [I]`, FX65 (R206). -/
  | ldVxMem (x : RegIdx)
deriving DecidableEq, Repr

end Sys2Proof
end

