-- ==== Sys2Proof/WellFormed.lean ====
section
/-! DEFINITION. What a well-formed instruction, configuration and program image are.

An instruction has no ill-formed term: "every 4-bit value names a register, so no register field is ever invalid"
(spec/30_encoding.md R73), and the width of every operand is its type. What can be ill formed on this machine is what it
is constructed from: the configuration (spec/00_scope.md R6) and the image (spec/70_reset_and_hazards.md R301). -/

namespace Sys2Proof

/-- Every term of `Instr` is an instruction of the machine: the operand types admit exactly the field values (R73). -/
abbrev Instr.WellFormed (_ : Instr) : Prop := True

namespace Config

/-- `FONT_BASE + 80 ≤ LOAD_OFFSET` (R6). -/
abbrev FontBelowProgram (c : Config) : Prop := c.fontBase.toNat + 80 ≤ c.loadOffset.toNat

/-- `LOAD_OFFSET ≤ MEM_SIZE − 2` (R6), with `2 ≤ MEM_SIZE` (R5). -/
abbrev ProgramInMemory (c : Config) : Prop := c.loadOffset.toNat + 2 ≤ c.memSize

/-- `MEM_SIZE ≤ 65536` (R6). -/
abbrev MemoryAddressable (c : Config) : Prop := c.memSize ≤ 65536

/-- `STACK_DEPTH ≥ 1` (R6). -/
abbrev StackNotEmpty (c : Config) : Prop := 1 ≤ c.stackDepth

/-- `FB_W ≥ 1` and `FB_H ≥ 1` (R6). -/
abbrev ScreenNotEmpty (c : Config) : Prop := 1 ≤ c.fbW ∧ 1 ≤ c.fbH

/-- A valid configuration (R6). The three behavioural switches are free: "every combination is valid". -/
abbrev Valid (c : Config) : Prop :=
  c.FontBelowProgram ∧ c.ProgramInMemory ∧ c.MemoryAddressable ∧ c.StackNotEmpty ∧ c.ScreenNotEmpty

/-- The image fits in memory above the load offset (R301). -/
abbrev ImageFits (c : Config) (image : List Byte) : Prop := c.loadOffset.toNat + image.length ≤ c.memSize

end Config

end Sys2Proof
end

