-- ==== Sys2Proof/Decode.lean ====
section
/-! DEFINITION. The bit-field extractor, the decoder, the opcode map and the encoder (spec/30_encoding.md). -/

namespace Sys2Proof

/-! ### The bit-field extractor (R71, R72) -/

/-- `F`, the opcode family, `w[15:12]`. -/
def fieldF (w : Word) : Nibble := w.extractLsb' 12 4

/-- `X`, the first register index, `w[11:8]`. -/
def fieldX (w : Word) : RegIdx := w.extractLsb' 8 4

/-- `Y`, the second register index, `w[7:4]`. -/
def fieldY (w : Word) : RegIdx := w.extractLsb' 4 4

/-- `N`, the 4-bit immediate or sub-opcode, `w[3:0]`. -/
def fieldN (w : Word) : Nibble := w.extractLsb' 0 4

/-- `NN`, the 8-bit immediate or sub-opcode, `w[7:0]`. -/
def fieldNN (w : Word) : Byte := w.extractLsb' 0 8

/-- `NNN`, the 12-bit address, `w[11:0]`. -/
def fieldNNN (w : Word) : Addr12 := w.extractLsb' 0 12

/-! ### The decoder (R75, R76) -/

/-- What the decoder answers (R75): one instruction, or `UnknownOpcode` carrying the raw word. -/
inductive Decoded where
  | instr (i : Instr)
  | unknownOpcode (w : Word)
deriving DecidableEq, Repr

/-- Family 8: the secondary dispatch on `N` (R76). -/
def decodeFamily8 (w : Word) : Decoded :=
  let x := fieldX w
  let y := fieldY w
  if fieldN w = 0x0 then .instr (.ldReg x y)
  else if fieldN w = 0x1 then .instr (.orReg x y)
  else if fieldN w = 0x2 then .instr (.andReg x y)
  else if fieldN w = 0x3 then .instr (.xorReg x y)
  else if fieldN w = 0x4 then .instr (.addReg x y)
  else if fieldN w = 0x5 then .instr (.sub x y)
  else if fieldN w = 0x6 then .instr (.shr x y)
  else if fieldN w = 0x7 then .instr (.subn x y)
  else if fieldN w = 0xE then .instr (.shl x y)
  else .unknownOpcode w

/-- Family E: the secondary dispatch on `NN` (R76). -/
def decodeFamilyE (w : Word) : Decoded :=
  if fieldNN w = 0x9E then .instr (.skp (fieldX w))
  else if fieldNN w = 0xA1 then .instr (.sknp (fieldX w))
  else .unknownOpcode w

/-- Family F: the secondary dispatch on `NN` (R76). -/
def decodeFamilyF (w : Word) : Decoded :=
  let x := fieldX w
  if fieldNN w = 0x07 then .instr (.ldVxDt x)
  else if fieldNN w = 0x0A then .instr (.ldVxK x)
  else if fieldNN w = 0x15 then .instr (.ldDtVx x)
  else if fieldNN w = 0x18 then .instr (.ldStVx x)
  else if fieldNN w = 0x1E then .instr (.addI x)
  else if fieldNN w = 0x29 then .instr (.ldF x)
  else if fieldNN w = 0x33 then .instr (.ldB x)
  else if fieldNN w = 0x55 then .instr (.ldMemVx x)
  else if fieldNN w = 0x65 then .instr (.ldVxMem x)
  else .unknownOpcode w

/-- The decode function of R76: total on every 16-bit word, and it reads only the word. -/
def decode (w : Word) : Decoded :=
  if fieldF w = 0x0 then
    if w = 0x00E0 then .instr .cls
    else if w = 0x00EE then .instr .ret
    else .unknownOpcode w
  else if fieldF w = 0x1 then .instr (.jp (fieldNNN w))
  else if fieldF w = 0x2 then .instr (.call (fieldNNN w))
  else if fieldF w = 0x3 then .instr (.seImm (fieldX w) (fieldNN w))
  else if fieldF w = 0x4 then .instr (.sneImm (fieldX w) (fieldNN w))
  else if fieldF w = 0x5 then
    if fieldN w = 0x0 then .instr (.seReg (fieldX w) (fieldY w)) else .unknownOpcode w
  else if fieldF w = 0x6 then .instr (.ldImm (fieldX w) (fieldNN w))
  else if fieldF w = 0x7 then .instr (.addImm (fieldX w) (fieldNN w))
  else if fieldF w = 0x8 then decodeFamily8 w
  else if fieldF w = 0x9 then
    if fieldN w = 0x0 then .instr (.sneReg (fieldX w) (fieldY w)) else .unknownOpcode w
  else if fieldF w = 0xA then .instr (.ldI (fieldNNN w))
  else if fieldF w = 0xB then .instr (.jpV0 (fieldNNN w))
  else if fieldF w = 0xC then .instr (.rnd (fieldX w) (fieldNN w))
  else if fieldF w = 0xD then .instr (.drw (fieldX w) (fieldY w) (fieldN w))
  else if fieldF w = 0xE then decodeFamilyE w
  else decodeFamilyF w

/-- The word of two bytes, the first the high byte: big-endian (spec/20_memory.md R54). -/
def wordOfBytes (hi lo : Byte) : Word := hi ++ lo

/-- The high byte of a word, which lies at the lower address (R54). -/
def highByte (w : Word) : Byte := w.extractLsb' 8 8

/-- The low byte of a word, which lies at the higher address (R54). -/
def lowByte (w : Word) : Byte := w.extractLsb' 0 8

/-- The decoder on a byte stream: the instruction of its first two bytes (R70: one length, 2 bytes) and the bytes after
it, or nothing when fewer than two bytes are left. -/
def decodeBytes : List Byte → Option (Decoded × List Byte)
  | hi :: lo :: rest => some (decode (wordOfBytes hi lo), rest)
  | _ => none

/-! ### The encoder (R74, R80) -/

/-- The word of an instruction, from the formats of R74 and the opcode map of R80. -/
def encode : Instr → Word
  | .cls         => 0x00E0
  | .ret         => 0x00EE
  | .jp nnn      => 0x1#4 ++ nnn
  | .call nnn    => 0x2#4 ++ nnn
  | .seImm x nn  => 0x3#4 ++ x ++ nn
  | .sneImm x nn => 0x4#4 ++ x ++ nn
  | .seReg x y   => 0x5#4 ++ x ++ y ++ 0x0#4
  | .ldImm x nn  => 0x6#4 ++ x ++ nn
  | .addImm x nn => 0x7#4 ++ x ++ nn
  | .ldReg x y   => 0x8#4 ++ x ++ y ++ 0x0#4
  | .orReg x y   => 0x8#4 ++ x ++ y ++ 0x1#4
  | .andReg x y  => 0x8#4 ++ x ++ y ++ 0x2#4
  | .xorReg x y  => 0x8#4 ++ x ++ y ++ 0x3#4
  | .addReg x y  => 0x8#4 ++ x ++ y ++ 0x4#4
  | .sub x y     => 0x8#4 ++ x ++ y ++ 0x5#4
  | .shr x y     => 0x8#4 ++ x ++ y ++ 0x6#4
  | .subn x y    => 0x8#4 ++ x ++ y ++ 0x7#4
  | .shl x y     => 0x8#4 ++ x ++ y ++ 0xE#4
  | .sneReg x y  => 0x9#4 ++ x ++ y ++ 0x0#4
  | .ldI nnn     => 0xA#4 ++ nnn
  | .jpV0 nnn    => 0xB#4 ++ nnn
  | .rnd x nn    => 0xC#4 ++ x ++ nn
  | .drw x y n   => 0xD#4 ++ x ++ y ++ n
  | .skp x       => 0xE#4 ++ x ++ 0x9E#8
  | .sknp x      => 0xE#4 ++ x ++ 0xA1#8
  | .ldVxDt x    => 0xF#4 ++ x ++ 0x07#8
  | .ldVxK x     => 0xF#4 ++ x ++ 0x0A#8
  | .ldDtVx x    => 0xF#4 ++ x ++ 0x15#8
  | .ldStVx x    => 0xF#4 ++ x ++ 0x18#8
  | .addI x      => 0xF#4 ++ x ++ 0x1E#8
  | .ldF x       => 0xF#4 ++ x ++ 0x29#8
  | .ldB x       => 0xF#4 ++ x ++ 0x33#8
  | .ldMemVx x   => 0xF#4 ++ x ++ 0x55#8
  | .ldVxMem x   => 0xF#4 ++ x ++ 0x65#8

/-- The bytes of an instruction in the order they lie in memory (R54). -/
def encodeBytes (i : Instr) : List Byte := [highByte (encode i), lowByte (encode i)]

/-! ### The opcode map as rows of mask and match (R78, R80; opcode_table.json) -/

/-- One row of the opcode map: a word `w` selects it when `w &&& mask = pattern` (R78). -/
structure OpcodeRow where
  mnemonic : String
  pattern  : Word
  mask     : Word
deriving DecidableEq, Repr

/-- Does the word select the row (R78)? -/
abbrev OpcodeRow.Selects (row : OpcodeRow) (w : Word) : Prop := w &&& row.mask = row.pattern

/-- Rows 1 to 9 of R80. -/
def opcodeRows1to9 : List OpcodeRow :=
  [⟨"CLS", 0x00E0, 0xFFFF⟩, ⟨"RET", 0x00EE, 0xFFFF⟩, ⟨"JP_NNN", 0x1000, 0xF000⟩,
   ⟨"CALL_NNN", 0x2000, 0xF000⟩, ⟨"SE_Vx__NN", 0x3000, 0xF000⟩, ⟨"SNE_Vx__NN", 0x4000, 0xF000⟩,
   ⟨"SE_Vx__Vy", 0x5000, 0xF00F⟩, ⟨"LD_Vx__NN", 0x6000, 0xF000⟩, ⟨"ADD_Vx__NN", 0x7000, 0xF000⟩]

/-- Rows 10 to 19 of R80. -/
def opcodeRows10to19 : List OpcodeRow :=
  [⟨"LD_Vx__Vy", 0x8000, 0xF00F⟩, ⟨"OR_Vx__Vy", 0x8001, 0xF00F⟩, ⟨"AND_Vx__Vy", 0x8002, 0xF00F⟩,
   ⟨"XOR_Vx__Vy", 0x8003, 0xF00F⟩, ⟨"ADD_Vx__Vy", 0x8004, 0xF00F⟩, ⟨"SUB_Vx__Vy", 0x8005, 0xF00F⟩,
   ⟨"SHR_Vx__Vy", 0x8006, 0xF00F⟩, ⟨"SUBN_Vx__Vy", 0x8007, 0xF00F⟩, ⟨"SHL_Vx__Vy", 0x800E, 0xF00F⟩,
   ⟨"SNE_Vx__Vy", 0x9000, 0xF00F⟩]

/-- Rows 20 to 34 of R80. -/
def opcodeRows20to34 : List OpcodeRow :=
  [⟨"LD_I__NNN", 0xA000, 0xF000⟩, ⟨"JP_V0__NNN", 0xB000, 0xF000⟩, ⟨"RND_Vx__NN", 0xC000, 0xF000⟩,
   ⟨"DRW_Vx__Vy__N", 0xD000, 0xF000⟩, ⟨"SKP_Vx", 0xE09E, 0xF0FF⟩, ⟨"SKNP_Vx", 0xE0A1, 0xF0FF⟩,
   ⟨"LD_Vx__DT", 0xF007, 0xF0FF⟩, ⟨"LD_Vx__K", 0xF00A, 0xF0FF⟩, ⟨"LD_DT__Vx", 0xF015, 0xF0FF⟩,
   ⟨"LD_ST__Vx", 0xF018, 0xF0FF⟩, ⟨"ADD_I__Vx", 0xF01E, 0xF0FF⟩, ⟨"LD_F__Vx", 0xF029, 0xF0FF⟩,
   ⟨"LD_B__Vx", 0xF033, 0xF0FF⟩, ⟨"LD__I___Vx", 0xF055, 0xF0FF⟩, ⟨"LD_Vx___I", 0xF065, 0xF0FF⟩]

/-- The opcode map of R80, 34 rows. -/
def opcodeTable : List OpcodeRow := opcodeRows1to9 ++ opcodeRows10to19 ++ opcodeRows20to34

/-- The place of an instruction's row in the opcode map, counted from 0 (R80's column "#" less one). -/
def Instr.rowIndex : Instr → Nat
  | .cls => 0 | .ret => 1 | .jp _ => 2 | .call _ => 3 | .seImm _ _ => 4 | .sneImm _ _ => 5
  | .seReg _ _ => 6 | .ldImm _ _ => 7 | .addImm _ _ => 8 | .ldReg _ _ => 9 | .orReg _ _ => 10
  | .andReg _ _ => 11 | .xorReg _ _ => 12 | .addReg _ _ => 13 | .sub _ _ => 14 | .shr _ _ => 15
  | .subn _ _ => 16 | .shl _ _ => 17 | .sneReg _ _ => 18 | .ldI _ => 19 | .jpV0 _ => 20
  | .rnd _ _ => 21 | .drw _ _ _ => 22 | .skp _ => 23 | .sknp _ => 24 | .ldVxDt _ => 25
  | .ldVxK _ => 26 | .ldDtVx _ => 27 | .ldStVx _ => 28 | .addI _ => 29 | .ldF _ => 30
  | .ldB _ => 31 | .ldMemVx _ => 32 | .ldVxMem _ => 33

/-! ### The decoder on a word numbered as the opcode table numbers it -/

/-- The 16-bit word whose bits are `w`, of which only the lowest `nbits` count. -/
def tableWord (nbits w : Nat) : Word := BitVec.ofNat 16 (w % 2 ^ nbits)

/-- The instruction that the decoder reads from the word's two bytes as they lie in memory. DESIGN CHOICE (the reading of
`nbits`), safe: notes/assumptions/16.md. -/
def decodeTableWord (nbits w : Nat) : Option Instr :=
  match decodeBytes [highByte (tableWord nbits w), lowByte (tableWord nbits w)] with
  | some (.instr i, _) => some i
  | _ => none

end Sys2Proof
end

