-- ==== Sys2Proof/Machine/State.lean ====
section
/-! DEFINITION. The machine state of spec/10_state.md R20, the reasons a machine halts, the moves of its agents, and the
state after reset. -/

namespace Sys2Proof.Machine

/-- Why a machine halts: the taxonomy of spec/60_exceptions.md R261. -/
inductive HaltReason where
  /-- A cycle began with `pc > MEM_SIZE − 2` (R266). -/
  | fetchOutOfBounds
  /-- The fetched word is unassigned: the word and the pc it was fetched from (R267). -/
  | decodeFailure (opcode : Word) (pc : Word)
  /-- `CALL` on a full stack (R268). -/
  | stackOverflow
  /-- `RET` on an empty stack (R269). -/
  | stackUnderflow
  /-- Raised by no step; kept so that the type matches the taxonomy (R270; spec/20_memory.md R64). -/
  | memoryOutOfBounds
deriving DecidableEq, Repr

/-- The spec's numbering of the reasons (R261, D35). -/
def HaltReason.code : HaltReason → Nat
  | .fetchOutOfBounds => 0
  | .decodeFailure _ _ => 1
  | .stackOverflow => 2
  | .stackUnderflow => 3
  | .memoryOutOfBounds => 4

/-- The run state (spec/10_state.md R32). -/
inductive RunState where
  | running
  | waitingForKey (r : RegIdx)
  | halted (reason : HaltReason)
deriving DecidableEq, Repr

/-- One move of an agent (spec/00_scope.md R10, spec/60_exceptions.md R290): what the environment lets happen at one
step. The form is the model's: DESIGN CHOICE, notes/assumptions/3.md. -/
inductive Move where
  /-- The core's turn: a cycle, where one is enabled (spec/40_fetch_dispatch.md R100). -/
  | cycle
  /-- One 60 Hz tick (R276). -/
  | tick
  /-- A key snapshot replaces `keys` (R281). -/
  | keySnapshot (keys : Vector Bool 16)
  /-- A key was just pressed (R283, R284). -/
  | keyPress (k : Nibble)
deriving DecidableEq, Repr

/-- Memory (spec/20_memory.md R50) as the cells that differ from its contents at creation, in rising order of address:
notes/assumptions/8.md. `Memory.wf` of Machine/Ops.lean is the canonical form. -/
abbrev Memory := List Host.Cell

/-- The framebuffer (spec/10_state.md R30): `FB_H` rows from the top, each of `FB_W` pixels from the left; `true` is
lit. -/
abbrev Framebuffer := List (List Bool)

/-- The framebuffer with every pixel 0. -/
def Framebuffer.clear (c : Config) : Framebuffer := List.replicate c.fbH (List.replicate c.fbW false)

/-- The machine state of R20, with the machine's configuration carried beside it (DESIGN CHOICE,
notes/assumptions/1.md) and the model's own two fields `agenda` (notes/assumptions/3.md) and `draws`
(notes/assumptions/4.md). -/
structure State where
  /-- The construction parameters (spec/00_scope.md R5); no step changes them. -/
  config : Config
  /-- The bytes of memory that differ from their creation value (spec/20_memory.md R50). -/
  mem    : Memory
  /-- The general registers `V0` to `VF` (R21, R22). -/
  V      : Vector Byte 16
  /-- The address register (R23). -/
  I      : Word
  /-- The program counter (R24). -/
  pc     : Word
  /-- The return addresses, the top first (R26). -/
  stack  : List Word
  /-- The delay timer (R28). -/
  DT     : Byte
  /-- The sound timer (R29). -/
  ST     : Byte
  /-- The framebuffer (R30). -/
  fb     : Framebuffer
  /-- The key array (R31). -/
  keys   : Vector Bool 16
  /-- The run state (R32). -/
  run    : RunState
  /-- The model's own: the moves the environment has chosen for the next steps; the core's turn when it is empty, and for
  good, since the list is finite (DESIGN CHOICE, notes/assumptions/22.md). -/
  agenda : List Move
  /-- The model's own: how many free bytes `RND` has drawn. -/
  draws  : Nat
deriving DecidableEq, Repr

/-- Why a step stops. -/
inductive Fault where
  /-- Raised by `step` in a state that is already `Halted`, and by nothing else: "no further cycles execute; reason is
  reported, not retried", no agent has a step (spec/60_exceptions.md R263). Safe: notes/assumptions/6.md. -/
  | halted (reason : HaltReason)
deriving DecidableEq, Repr

/-- Why something is refused. -/
inductive Refusal where
  /-- An instruction without a meaning, by its mnemonic, raised by `exec` only. No arm of this model raises it. Safe. -/
  | notModelled (mnemonic : String)
  /-- Raised by `create`: the configuration is not valid, so "an invalid configuration is refused at construction"
  (spec/00_scope.md R6). Safe. -/
  | invalidConfiguration
  /-- Raised by `create`: the image does not fit, so it "is refused at construction and no state is created"
  (spec/70_reset_and_hazards.md R301). Safe. -/
  | imageTooLarge
deriving DecidableEq, Repr

/-- Every field at its creation value (spec/10_state.md R36), with an empty image. The order of the agents' steps after
creation is free (spec/60_exceptions.md R290); the empty `agenda` here, and so in `State.reset`, `create` and
`explicitReset`, settles it as turns of the core alone until an agenda is set. DESIGN CHOICE, unsafe for a claim about that
one run: notes/assumptions/3.md. -/
def State.created (c : Config) : State where
  config := c
  mem    := []
  V      := Vector.replicate 16 0
  I      := 0
  pc     := c.loadOffset
  stack  := []
  DT     := 0
  ST     := 0
  fb     := Framebuffer.clear c
  keys   := Vector.replicate 16 false
  run    := .running
  agenda := []
  draws  := 0

/-- The machine right after reset: creation (R36) with the decided parameters and an empty image. The values of the two
OPEN switches, of `agenda` and of `draws` are the model's: DESIGN CHOICE, notes/assumptions/2.md, 3.md, 4.md. How a
program comes to run: notes/assumptions/9.md. -/
def State.reset : State := State.created Config.atReset

end Sys2Proof.Machine
end

