-- ==== Sys2Proof/Machine/Ops.lean ====
section
/-! DEFINITION. The named operations over the state that every instruction and event goes through: registers, memory,
stack, framebuffer, halting, and the end of a cycle. -/

namespace Sys2Proof.Machine

/-! ### Memory (spec/20_memory.md) -/

/-- What a byte that no write has changed reads as: the glyph table at `FONT_BASE`, 0 elsewhere (spec/10_state.md R36,
spec/20_memory.md R58, spec/70_reset_and_hazards.md R303). -/
def Memory.creationByte (c : Config) (a : Nat) : Byte :=
  if _h : c.fontBase.toNat ≤ a ∧ a - c.fontBase.toNat < 80 then c.font[a - c.fontBase.toNat] else 0

/-- `mem[a]` (R50). -/
def Memory.read (c : Config) : Memory → Nat → Byte
  | [], a => Memory.creationByte c a
  | cell :: m, a => if cell.1 = a then cell.2 else Memory.read c m a

/-- Put a cell among cells of rising address. -/
def Memory.insert (a : Nat) (v : Byte) : Memory → Memory
  | [] => [(a, v)]
  | cell :: m => if a < cell.1 then (a, v) :: cell :: m else cell :: Memory.insert a v m

/-- `mem[a] <- v` (R50): the cell of `a` is dropped and put back unless `v` is its creation value. -/
def Memory.write (c : Config) (m : Memory) (a : Nat) (v : Byte) : Memory :=
  if v = Memory.creationByte c a then m.filter (fun cell => cell.1 ≠ a)
  else Memory.insert a v (m.filter (fun cell => cell.1 ≠ a))

/-- The canonical form: addresses strictly rising and inside `mem`, and no cell equal to its creation value. -/
abbrev Memory.wf (c : Config) (m : Memory) : Prop :=
  m.Pairwise (fun p q => p.1 < q.1) ∧ ∀ cell ∈ m, cell.1 < c.memSize ∧ cell.2 ≠ Memory.creationByte c cell.1

/-- `MemRead(a, 1)`, reduced mod `MEM_SIZE` (R51; spec/00_scope.md R8). -/
def State.memRead (s : State) (a : Nat) : Byte := Memory.read s.config s.mem (a % s.config.memSize)

/-- `MemWrite(a, 1, v)`, reduced mod `MEM_SIZE` (R51; spec/00_scope.md R8). -/
def State.memWrite (s : State) (a : Nat) (v : Byte) : State :=
  { s with mem := s.mem.write s.config (a % s.config.memSize) v }

/-- `Fetch(pc)` (R54, R57): the big-endian word at `pc`, which is defined only when `pc ≤ MEM_SIZE − 2`. -/
def State.fetch (s : State) : Option Word :=
  if s.pc.toNat + 2 ≤ s.config.memSize then
    some (wordOfBytes (Memory.read s.config s.mem s.pc.toNat) (Memory.read s.config s.mem (s.pc.toNat + 1)))
  else none

/-! ### Registers (spec/10_state.md R21 to R24, R28, R29) -/

/-- `V[x]`. -/
def State.reg (s : State) (x : RegIdx) : Byte := s.V[x.toNat]

/-- `V[x] <- v`. -/
def State.setReg (s : State) (x : RegIdx) (v : Byte) : State := { s with V := s.V.set x.toNat v }

/-- `I <- a`. -/
def State.setI (s : State) (a : Word) : State := { s with I := a }

/-- `pc <- target`. -/
def State.setPc (s : State) (target : Word) : State := { s with pc := target }

/-- `DT <- v`. -/
def State.setDT (s : State) (v : Byte) : State := { s with DT := v }

/-- `ST <- v`. -/
def State.setST (s : State) (v : Byte) : State := { s with ST := v }

/-- `keys <- snapshot`. -/
def State.setKeys (s : State) (snapshot : Vector Bool 16) : State := { s with keys := snapshot }

/-- `run <- r`. -/
def State.setRun (s : State) (r : RunState) : State := { s with run := r }

/-- The environment's remaining moves (the model's own field). -/
def State.setAgenda (s : State) (moves : List Move) : State := { s with agenda := moves }

/-- One more free byte has been drawn (the model's own field). -/
def State.countDraw (s : State) : State := { s with draws := s.draws + 1 }

/-! ### The stack (spec/10_state.md R26, R27) -/

/-- The stack, `stack <- entries`. -/
def State.setStack (s : State) (entries : List Word) : State := { s with stack := entries }

/-- `Push(v)`: nothing when the stack is full (`raise Halt(StackOverflow)`). -/
def State.push (s : State) (v : Word) : Option State :=
  if s.stack.length = s.config.stackDepth then none else some (s.setStack (v :: s.stack))

/-- `Pop()`: the top entry and the state without it; nothing when the stack is empty
(`raise Halt(StackUnderflow)`). -/
def State.pop (s : State) : Option (Word × State) :=
  match s.stack with
  | [] => none
  | top :: rest => some (top, s.setStack rest)

/-! ### The framebuffer (spec/10_state.md R30) -/

/-- `fb[x, y]`: column `x`, row `y`. -/
def Framebuffer.pixel (fb : Framebuffer) (x y : Nat) : Bool := (fb.getD y []).getD x false

/-- `fb[x, y] <- b`. -/
def Framebuffer.setPixel (fb : Framebuffer) (x y : Nat) (b : Bool) : Framebuffer :=
  fb.modify y (fun row => row.set x b)

/-- The framebuffer, `fb <- pixels`. -/
def State.setFb (s : State) (pixels : Framebuffer) : State := { s with fb := pixels }

/-- `fb[x, y]` of the state. -/
def State.pixel (s : State) (x y : Nat) : Bool := s.fb.pixel x y

/-! ### Halting, the machine's one way of taking an exception, and the end of a cycle
(spec/40_fetch_dispatch.md R106 to R112) -/

/-- What a handler returns beside the state (R106). -/
inductive Signal where
  /-- The handler did not write `pc`: the loop adds 2 (R107). -/
  | advance
  /-- The handler wrote `pc` itself (R108). -/
  | done
  /-- The handler is `LD Vx, K`: the core waits for a key (R109). -/
  | wait (r : RegIdx)
  /-- The handler failed (R110). -/
  | halt (reason : HaltReason)
deriving DecidableEq, Repr

/-- Halt entry (R110; spec/60_exceptions.md R262): the state the cycle began with, with only `run` changed. There is no
vector and no saved register, and there is no return from a halt (R260, R263). -/
def State.haltWith (s : State) (reason : HaltReason) : State := s.setRun (.halted reason)

/-- `pc + 2` mod 2^16, the address after the instruction at `pc` (R107, R111). -/
def State.nextPc (s : State) : Word := s.pc + 2

/-- `pc + 4` mod 2^16, where a skip that holds goes (R111; spec/42_branch.md R171). -/
def State.skipPc (s : State) : Word := s.pc + 4

/-- The end of a cycle (R107 to R110, R112): from the state `before` the handler and what the handler returned. -/
def complete (before : State) : State × Signal → Host.Outcome State Fault Refusal
  | (after, .advance) => .next (after.setPc before.nextPc)
  | (after, .done) => .next after
  | (after, .wait r) => .next (after.setRun (.waitingForKey r))
  | (_, .halt reason) => .next (before.haltWith reason)

/-- A conditional skip (spec/42_branch.md R171, R172): `pc <- pc + 4` and `Done` when the condition holds, else `Advance`. -/
def skipIf (condition : Bool) (s : State) : State × Signal :=
  if condition then (s.setPc s.skipPc, .done) else (s, .advance)

/-! ### Outputs (spec/00_scope.md R9) -/

/-- "tone active" = `sound_timer > 0` (spec/60_exceptions.md R287). -/
def State.toneActive (s : State) : Bool := decide (s.ST.toNat > 0)

/-- The framebuffer view: the pixel at column `x`, row `y`, 1 = lit (spec/60_exceptions.md R286). -/
def State.framebufferView (s : State) (x y : Nat) : Bool := s.pixel x y

/-- `waiting_for_key` of the document: `some r` exactly when `run = WaitingForKey(r)` (spec/10_state.md R32). -/
def State.waitingForKey (s : State) : Option RegIdx :=
  match s.run with
  | .waitingForKey r => some r
  | _ => none

/-- The halt reason that the host surfaces (spec/60_exceptions.md R264). -/
def State.haltReason (s : State) : Option HaltReason :=
  match s.run with
  | .halted reason => some reason
  | _ => none

end Sys2Proof.Machine
end

