-- ==== Sys2Proof/Machine/Creation.lean ====
section
/-! DEFINITION. Creation from a configuration and a program image, and the explicit reset
(spec/70_reset_and_hazards.md R300 to R304). -/

namespace Sys2Proof.Machine

/-- The bytes placed in order from address `a` on, "loaded verbatim" (R301). -/
def Memory.load (c : Config) (m : Memory) (a : Nat) : List Byte → Memory
  | [] => m
  | b :: bytes => Memory.load c (m.write c a b) (a + 1) bytes

/-- Creation (R300, R301): an invalid configuration is refused (spec/00_scope.md R6), an image that does not fit is
refused, and otherwise every field has its value of spec/10_state.md R36. The created machine's `agenda` is empty, the
model's choice: notes/assumptions/3.md. -/
def create (c : Config) (image : List Byte) : Host.Outcome State Fault Refusal :=
  if c.Valid then
    if c.ImageFits image then
      .next { State.created c with mem := Memory.load c [] c.loadOffset.toNat image }
    else .refused .imageTooLarge
  else .refused .invalidConfiguration

/-- Explicit reset (R304), a host action: the state is discarded and the machine created again from the same
configuration and the image, which the host keeps (notes/assumptions/11.md), with an empty `agenda`
(notes/assumptions/3.md). -/
def explicitReset (s : State) (image : List Byte) : Host.Outcome State Fault Refusal := create s.config image

end Sys2Proof.Machine
end

