-- ==== Sys2Proof/Machine/Operands.lean ====
section
/-! DEFINITION. Operand forms: immediates, register numbers, low-nibble indices, the shift source, effective addresses
and the register block. -/

namespace Sys2Proof.Machine

/-- `zext_16(NNN)` (spec/30_encoding.md R73), an absolute address that nothing checks (spec/42_branch.md R170). -/
def absoluteAddress (nnn : Addr12) : Word := nnn.setWidth 16

/-- `V[x][3:0]`, the index of a key or glyph (D20; spec/44_io.md R234, spec/43_memory_ops.md R203). -/
def lowNibble (v : Byte) : Nibble := v.extractLsb' 0 4

/-- `V[k]` for a register number counted in a loop (spec/43_memory_ops.md R205). -/
def State.regAt (s : State) (k : Nat) : Byte := s.reg (BitVec.ofNat 4 k)

/-- The source of a shift: `V[y]` in the legacy form, `V[x]` in the in-place form (spec/41_alu.md R144, R145). -/
def State.shiftSource (s : State) (x y : RegIdx) : Byte :=
  match s.config.shiftQuirk with
  | .legacy => s.reg y
  | .inPlace => s.reg x

/-- `I + k` on unbounded integers; `memRead` and `memWrite` reduce it mod `MEM_SIZE` (spec/43_memory_ops.md R200). -/
def State.effective (s : State) (k : Nat) : Nat := s.I.toNat + k

/-- `(I + k) mod MEM_SIZE` as a value for `I` (spec/43_memory_ops.md R202, R205, R206). -/
def State.advancedI (s : State) (k : Nat) : Word := BitVec.ofNat 16 (s.effective k % s.config.memSize)

/-- `I` after a register block of `x + 1` registers: moved past it when `LOADSTORE_INC` (R205, R206). -/
def State.incrementI (s : State) (x : RegIdx) : State :=
  if s.config.loadStoreInc then s.setI (s.advancedI (x.toNat + 1)) else s

/-- `MemWrite(I + k, 1, V[k])` for the first `n` registers in rising `k` (R205). -/
def State.storeRegs : Nat → State → State
  | 0, s => s
  | k + 1, s => (State.storeRegs k s).memWrite (s.effective k) (s.regAt k)

/-- `V[k] <- MemRead(I + k, 1)` for the first `n` registers in rising `k` (R206). -/
def State.loadRegs : Nat → State → State
  | 0, s => s
  | k + 1, s => (State.loadRegs k s).setReg (BitVec.ofNat 4 k) (s.memRead (s.effective k))

end Sys2Proof.Machine
end

