-- ==== Sys2Proof/Machine/Flags.lean ====
section
/-! DEFINITION. The flag computations and the one way a flag is written (spec/41_alu.md R131 to R133, R144, R145;
spec/44_io.md R233). -/

namespace Sys2Proof.Machine

/-- A flag value: 1 or 0 (spec/10_state.md R22). -/
def flagByte (b : Bool) : Byte := if b then 1 else 0

/-- The carry of `a + b`, on unbounded integers (R131). -/
def carryFlag (a b : Byte) : Byte := flagByte (decide (a.toNat + b.toNat > 255))

/-- Not-borrow of `a − b` (R132): 1 when `a ≥ b`. -/
def notBorrowFlag (a b : Byte) : Byte := flagByte (decide (a.toNat ≥ b.toNat))

/-- The bit that a right shift moves out, bit 0 (R144). -/
def shiftedOutRight (src : Byte) : Byte := flagByte (src.getLsbD 0)

/-- The bit that a left shift moves out, bit 7 (R145). -/
def shiftedOutLeft (src : Byte) : Byte := flagByte (src.getLsbD 7)

/-- `V[x] <- result`, then `VF <- flag` (R133): when `x` is 15 the flag is what stays. -/
def State.setRegThenFlag (s : State) (x : RegIdx) (result flag : Byte) : State :=
  (s.setReg x result).setReg vf flag

end Sys2Proof.Machine
end

