-- ==== Sys2Proof/Machine/Alu.lean ====
section
/-! DEFINITION. Moves, arithmetic, logic and shifts (spec/41_alu.md R135 to R145). Every handler here signals `Advance`
and none can fail. -/

namespace Sys2Proof.Machine

/-- `LD Vx, NN` (R135). -/
def execLdImm (x : RegIdx) (nn : Byte) (s : State) : Host.Outcome State Fault Refusal :=
  complete s (s.setReg x nn, .advance)

/-- `ADD Vx, NN` (R136): the carry is written to `VF` only when `ADD_IMM_FLAG = Carry`. -/
def execAddImm (x : RegIdx) (nn : Byte) (s : State) : Host.Outcome State Fault Refusal :=
  complete s
    (match s.config.addImmFlag with
      | .unchanged => s.setReg x (s.reg x + nn)
      | .carry => s.setRegThenFlag x (s.reg x + nn) (carryFlag (s.reg x) nn),
     .advance)

/-- `LD Vx, Vy` (R137). -/
def execLdReg (x y : RegIdx) (s : State) : Host.Outcome State Fault Refusal :=
  complete s (s.setReg x (s.reg y), .advance)

/-- `OR Vx, Vy` (R138). -/
def execOrReg (x y : RegIdx) (s : State) : Host.Outcome State Fault Refusal :=
  complete s (s.setReg x (s.reg x ||| s.reg y), .advance)

/-- `AND Vx, Vy` (R139). -/
def execAndReg (x y : RegIdx) (s : State) : Host.Outcome State Fault Refusal :=
  complete s (s.setReg x (s.reg x &&& s.reg y), .advance)

/-- `XOR Vx, Vy` (R140). -/
def execXorReg (x y : RegIdx) (s : State) : Host.Outcome State Fault Refusal :=
  complete s (s.setReg x (s.reg x ^^^ s.reg y), .advance)

/-- `ADD Vx, Vy` (R141): `VF` is the carry (R131). -/
def execAddReg (x y : RegIdx) (s : State) : Host.Outcome State Fault Refusal :=
  complete s (s.setRegThenFlag x (s.reg x + s.reg y) (carryFlag (s.reg x) (s.reg y)), .advance)

/-- `SUB Vx, Vy` (R142): `VF` is the not-borrow of `Vx − Vy` (R132). -/
def execSub (x y : RegIdx) (s : State) : Host.Outcome State Fault Refusal :=
  complete s (s.setRegThenFlag x (s.reg x - s.reg y) (notBorrowFlag (s.reg x) (s.reg y)), .advance)

/-- `SUBN Vx, Vy` (R143): `VF` is the not-borrow of `Vy − Vx` (R132). -/
def execSubn (x y : RegIdx) (s : State) : Host.Outcome State Fault Refusal :=
  complete s (s.setRegThenFlag x (s.reg y - s.reg x) (notBorrowFlag (s.reg y) (s.reg x)), .advance)

/-- `SHR Vx, Vy` (R144): `VF` is bit 0 of the source. -/
def execShr (x y : RegIdx) (s : State) : Host.Outcome State Fault Refusal :=
  complete s (s.setRegThenFlag x (s.shiftSource x y >>> 1) (shiftedOutRight (s.shiftSource x y)), .advance)

/-- `SHL Vx, Vy` (R145): `VF` is bit 7 of the source. -/
def execShl (x y : RegIdx) (s : State) : Host.Outcome State Fault Refusal :=
  complete s (s.setRegThenFlag x (s.shiftSource x y <<< 1) (shiftedOutLeft (s.shiftSource x y)), .advance)

end Sys2Proof.Machine
end

