-- ==== Sys2Proof/Machine/Branch.lean ====
section
/-! DEFINITION. Control transfer and conditional skips (spec/42_branch.md R173 to R180). No instruction here writes a
general register. -/

namespace Sys2Proof.Machine

/-- `RET` (R173): the popped address is used as it is; an empty stack halts with `StackUnderflow` (R269). -/
def execRet (s : State) : Host.Outcome State Fault Refusal :=
  complete s
    (match s.pop with
      | none => (s, .halt .stackUnderflow)
      | some (top, popped) => (popped.setPc top, .done))

/-- `JP NNN` (R174). -/
def execJp (nnn : Addr12) (s : State) : Host.Outcome State Fault Refusal :=
  complete s (s.setPc (absoluteAddress nnn), .done)

/-- `CALL NNN` (R175): the address of the next instruction is pushed; a full stack halts with `StackOverflow` (R268). -/
def execCall (nnn : Addr12) (s : State) : Host.Outcome State Fault Refusal :=
  complete s
    (match s.push s.nextPc with
      | none => (s, .halt .stackOverflow)
      | some pushed => (pushed.setPc (absoluteAddress nnn), .done))

/-- `JP V0, NNN` (R176): the sum is reduced mod 2^16 and not to 12 bits. -/
def execJpV0 (nnn : Addr12) (s : State) : Host.Outcome State Fault Refusal :=
  complete s (s.setPc (absoluteAddress nnn + (s.reg 0).setWidth 16), .done)

/-- `SE Vx, NN` (R177). -/
def execSeImm (x : RegIdx) (nn : Byte) (s : State) : Host.Outcome State Fault Refusal :=
  complete s (skipIf (decide (s.reg x = nn)) s)

/-- `SNE Vx, NN` (R178). -/
def execSneImm (x : RegIdx) (nn : Byte) (s : State) : Host.Outcome State Fault Refusal :=
  complete s (skipIf (decide (s.reg x ≠ nn)) s)

/-- `SE Vx, Vy` (R179). -/
def execSeReg (x y : RegIdx) (s : State) : Host.Outcome State Fault Refusal :=
  complete s (skipIf (decide (s.reg x = s.reg y)) s)

/-- `SNE Vx, Vy` (R180). -/
def execSneReg (x y : RegIdx) (s : State) : Host.Outcome State Fault Refusal :=
  complete s (skipIf (decide (s.reg x ≠ s.reg y)) s)

end Sys2Proof.Machine
end

