-- ==== Sys2Proof/Machine/Io.lean ====
section
/-! DEFINITION. Display, keys, timers and random (spec/44_io.md R230 to R240). No handler here can fail. -/

namespace Sys2Proof.Machine

/-! ### Display -/

/-- `CLS` (R230). -/
def execCls (s : State) : Host.Outcome State Fault Refusal :=
  complete s (s.setFb (Framebuffer.clear s.config), .advance)

/-- Row `r` of the sprite at `I` (R231). -/
def State.spriteRow (s : State) (r : Nat) : Byte := s.memRead (s.effective r)

/-- The pixels under the set bits of sprite row `r`, left to right, wrapped around both edges (R231, R232): bit 7 is the
leftmost. -/
def State.rowPixels (s : State) (x0 y0 r : Nat) : List (Nat × Nat) :=
  let b := s.spriteRow r
  (List.range 8).filterMap fun c =>
    if b.getLsbD (7 - c) then some ((x0 + c) % s.config.fbW, (y0 + r) % s.config.fbH) else none

/-- The pixels that `DRW Vx, Vy, N` toggles, in the order of R232's loops. -/
def State.spritePixels (s : State) (x y : RegIdx) (n : Nibble) : List (Nat × Nat) :=
  (List.range n.toNat).flatMap
    (s.rowPixels ((s.reg x).toNat % s.config.fbW) ((s.reg y).toNat % s.config.fbH))

/-- One pixel of R232: the collision is noted when the pixel was lit, then the pixel is toggled. -/
def togglePixel (drawn : Framebuffer × Bool) (p : Nat × Nat) : Framebuffer × Bool :=
  (drawn.1.setPixel p.1 p.2 (!drawn.1.pixel p.1 p.2), drawn.2 || drawn.1.pixel p.1 p.2)

/-- The framebuffer after toggling the pixels in order, and the collision (R232). -/
def drawPixels (fb : Framebuffer) (pixels : List (Nat × Nat)) : Framebuffer × Bool :=
  pixels.foldl togglePixel (fb, false)

/-- `DRW Vx, Vy, N` (R232, R233): `VF` is written after every pixel. -/
def execDrw (x y : RegIdx) (n : Nibble) (s : State) : Host.Outcome State Fault Refusal :=
  let drawn := drawPixels s.fb (s.spritePixels x y n)
  complete s ((s.setFb drawn.1).setReg vf (flagByte drawn.2), .advance)

/-! ### Keys -/

/-- `keys[k]` (spec/10_state.md R31). -/
def State.key (s : State) (k : Nibble) : Bool := s.keys[k.toNat]

/-- `SKP Vx` (R234): only the low nibble of `Vx` names the key, read as the cycle finds it (spec/40_fetch_dispatch.md
R103). -/
def execSkp (x : RegIdx) (s : State) : Host.Outcome State Fault Refusal :=
  complete s (skipIf (s.key (lowNibble (s.reg x))) s)

/-- `SKNP Vx` (R235). -/
def execSknp (x : RegIdx) (s : State) : Host.Outcome State Fault Refusal :=
  complete s (skipIf (!s.key (lowNibble (s.reg x))) s)

/-- `LD Vx, K` (R236): the core waits; the key-press step of Machine/Events.lean completes the instruction. -/
def execLdVxK (x : RegIdx) (s : State) : Host.Outcome State Fault Refusal :=
  complete s (s, .wait x)

/-! ### Timers -/

/-- `LD Vx, DT` (R237). -/
def execLdVxDt (x : RegIdx) (s : State) : Host.Outcome State Fault Refusal :=
  complete s (s.setReg x s.DT, .advance)

/-- `LD DT, Vx` (R238). -/
def execLdDtVx (x : RegIdx) (s : State) : Host.Outcome State Fault Refusal :=
  complete s (s.setDT (s.reg x), .advance)

/-- `LD ST, Vx` (R239). -/
def execLdStVx (x : RegIdx) (s : State) : Host.Outcome State Fault Refusal :=
  complete s (s.setST (s.reg x), .advance)

/-! ### Random -/

/-- The handler of `RND Vx, NN` for a given `Random8` (R240; spec/40_fetch_dispatch.md R105). -/
def rndHandler (random8 : Byte) (x : RegIdx) (nn : Byte) (s : State) : State × Signal :=
  (s.setReg x (random8 &&& nn), .advance)

/-- `RND Vx, NN` (R240): `Random8` is the free byte of this drawing, and the drawing is counted, so that the next one is
another free byte. -/
def execRnd (x : RegIdx) (nn : Byte) (s : State) : Host.Outcome State Fault Refusal :=
  complete s (rndHandler (Config.random8 s.draws) x nn s.countDraw)

end Sys2Proof.Machine
end

