-- ==== Sys2Proof/Machine/MemoryOps.lean ====
section
/-! DEFINITION. The address register and the memory instructions (spec/43_memory_ops.md R201 to R206). Every handler here
signals `Advance`, none can fail, none writes `VF` as a flag. -/

namespace Sys2Proof.Machine

/-- `LD I, NNN` (R201): written unreduced. -/
def execLdI (nnn : Addr12) (s : State) : Host.Outcome State Fault Refusal :=
  complete s (s.setI (absoluteAddress nnn), .advance)

/-- `ADD I, Vx` (R202): reduced mod `MEM_SIZE`; `VF` is not written. -/
def execAddI (x : RegIdx) (s : State) : Host.Outcome State Fault Refusal :=
  complete s (s.setI (s.advancedI (s.reg x).toNat), .advance)

/-- `LD F, Vx` (R203): the glyph of the low nibble of `Vx`. -/
def execLdF (x : RegIdx) (s : State) : Host.Outcome State Fault Refusal :=
  complete s (s.setI (BitVec.ofNat 16 (s.config.fontBase.toNat + 5 * (lowNibble (s.reg x)).toNat)), .advance)

/-- The decimal digits of a byte: hundreds, tens, units (R204). -/
def bcdDigits (v : Byte) : Byte × Byte × Byte :=
  (BitVec.ofNat 8 (v.toNat / 100), BitVec.ofNat 8 (v.toNat / 10 % 10), BitVec.ofNat 8 (v.toNat % 10))

/-- `LD B, Vx` (R204): the digits at `I`, `I + 1`, `I + 2`, each address reduced for itself. -/
def execLdB (x : RegIdx) (s : State) : Host.Outcome State Fault Refusal :=
  complete s
    (((s.memWrite (s.effective 0) (bcdDigits (s.reg x)).1).memWrite (s.effective 1) (bcdDigits (s.reg x)).2.1).memWrite
        (s.effective 2) (bcdDigits (s.reg x)).2.2,
     .advance)

/-- `LD [I], Vx` (R205): `V[0]` to `V[x]`, and `I` past them when `LOADSTORE_INC`. -/
def execLdMemVx (x : RegIdx) (s : State) : Host.Outcome State Fault Refusal :=
  complete s ((s.storeRegs (x.toNat + 1)).incrementI x, .advance)

/-- `LD Vx, [I]` (R206): `V[0]` to `V[x]`, and `I` past them when `LOADSTORE_INC`. -/
def execLdVxMem (x : RegIdx) (s : State) : Host.Outcome State Fault Refusal :=
  complete s ((s.loadRegs (x.toNat + 1)).incrementI x, .advance)

end Sys2Proof.Machine
end

