-- ==== Sys2Proof/Machine/Events.lean ====
section
/-! DEFINITION. The steps of the timer agent and the input agent (spec/60_exceptions.md R276 to R285). -/

namespace Sys2Proof.Machine

/-- One timer's decrement, "floor at zero" (R276). -/
def timerDown (t : Byte) : Byte := if t.toNat > 0 then t - 1 else 0

/-- The tick (R276): both timers, and nothing else. -/
def State.tick (s : State) : State := (s.setDT (timerDown s.DT)).setST (timerDown s.ST)

/-- The key snapshot (R281): `keys`, and nothing else. -/
def State.snapshotKeys (s : State) (keys : Vector Bool 16) : State := s.setKeys keys

/-- The key-press event: it completes the `LD Vx, K` at `pc` when the core waits (R283), and has no effect when the core
is `Running` (R284). It does not change `keys`. -/
def State.pressKey (s : State) (k : Nibble) : State :=
  match s.run with
  | .waitingForKey r => ((s.setReg r (k.setWidth 8)).setPc s.nextPc).setRun .running
  | .running => s
  | .halted _ => s

end Sys2Proof.Machine
end

