-- ==== Sys2Proof/Machine/Cycle.lean ====
section
/-! DEFINITION. The cycle of the core (spec/40_fetch_dispatch.md R100 to R112), the moves of the agents
(spec/60_exceptions.md R290), and where the next cycle fetches. -/

namespace Sys2Proof.Machine

/-- The cycle of R112, in `Running`: fetch, decode, dispatch; the first check that fails halts the machine (R265). -/
def cycle (s : State) : Host.Outcome State Fault Refusal :=
  match s.fetch with
  | none => .next (s.haltWith .fetchOutOfBounds)
  | some w =>
    match decode w with
    | .unknownOpcode opcode => .next (s.haltWith (.decodeFailure opcode s.pc))
    | .instr i => exec i s

/-- The core's turn: a cycle exactly when the core is `Running` (R100); a core that waits for a key lets its turn pass
(R285; notes/assumptions/5.md). -/
def coreTurn (s : State) : Host.Outcome State Fault Refusal :=
  match s.run with
  | .running => cycle s
  | .waitingForKey _ => .next s
  | .halted reason => .fault (.halted reason)

/-- The next move of the agenda, the core's turn when there is none; a move is taken off the agenda as it happens
(R290; notes/assumptions/3.md). How many ticks and key events a run has is free (R277); the agenda is a finite list, so in
every run of the model they stop for good after finitely many steps, and the fairness that spec/70_reset_and_hazards.md
R319 speaks of holds of no endless run. DESIGN CHOICE, unsafe for a claim about endless runs: notes/assumptions/22.md. -/
def takeMove (s : State) : Host.Outcome State Fault Refusal :=
  match s.agenda with
  | [] => coreTurn s
  | .cycle :: rest => coreTurn (s.setAgenda rest)
  | .tick :: rest => .next (s.setAgenda rest).tick
  | .keySnapshot keys :: rest => .next ((s.setAgenda rest).snapshotKeys keys)
  | .keyPress k :: rest => .next ((s.setAgenda rest).pressKey k)

/-- The agenda with the core's turn as its next move. -/
def offerCycle : List Move → List Move
  | [] => []
  | .cycle :: rest => .cycle :: rest
  | move :: rest => .cycle :: move :: rest

/-- The address the next cycle fetches from: `pc` where it can be fetched, else the load offset. -/
def State.fetchablePc (s : State) : Word :=
  if s.pc.toNat + 2 ≤ s.config.memSize then s.pc else s.config.loadOffset

/-- The two bytes of a word, the high byte first, stored at `a` and `a + 1` (spec/20_memory.md R54). -/
def Memory.placeWord (c : Config) (m : Memory) (a : Nat) (w : Word) : Memory :=
  (m.write c a (highByte w)).write c (a + 1) (lowByte w)

end Sys2Proof.Machine
end

