-- ==== Sys2Proof/Machine/Step.lean ====
section
/-! DEFINITION. One step of the machine, the union of the agents' steps (spec/60_exceptions.md R290), and a state with
an instruction placed where the next step fetches. -/

namespace Sys2Proof.Machine

/-- One step of the machine: in `Running` and in `WaitingForKey` the next move of an agent; in `Halted` no agent has a
step (R263), and the machine stops with the reason. -/
def step (s : State) : Host.Outcome State Fault Refusal :=
  match s.run with
  | .running => takeMove s
  | .waitingForKey _ => takeMove s
  | .halted reason => .fault (.halted reason)

/-- `s` with the instruction whose bits are `w` at the place the next step fetches: its two bytes, high first, at `pc`,
and the core `Running` with the next move its own: notes/assumptions/10.md. -/
def State.withFetchWord (s : State) (nbits w : Nat) : State :=
  { s with
    mem := s.mem.placeWord s.config s.fetchablePc.toNat (tableWord nbits w)
    pc := s.fetchablePc
    run := .running
    agenda := offerCycle s.agenda }

end Sys2Proof.Machine
end

