-- ==== Sys2Proof/Safety.lean ====
section
/-! DEFINITION. The terms in which claims about the machine are made: what an instruction leaves alone, the invariant of
the machine, what the next step is, and how a sprite lies on the framebuffer. -/

namespace Sys2Proof.Machine

/-! ### What stays the same -/

/-- The parts of the state, each named as its field. -/
inductive Part where
  | config | mem | V | I | pc | stack | DT | ST | fb | keys | run | agenda | draws
deriving DecidableEq, Repr

/-- The part reads the same in `t` as in `s`: memory by every byte, the registers by every register. -/
def Unchanged (s t : State) : Part → Prop
  | .config => t.config = s.config
  | .mem => ∀ a, t.memRead a = s.memRead a
  | .V => ∀ r, t.reg r = s.reg r
  | .I => t.I = s.I
  | .pc => t.pc = s.pc
  | .stack => t.stack = s.stack
  | .DT => t.DT = s.DT
  | .ST => t.ST = s.ST
  | .fb => t.fb = s.fb
  | .keys => t.keys = s.keys
  | .run => t.run = s.run
  | .agenda => t.agenda = s.agenda
  | .draws => t.draws = s.draws

/-- Every part outside the list is unchanged. -/
def KeepsAllBut (parts : List Part) (s t : State) : Prop := ∀ p, p ∉ parts → Unchanged s t p

/-- Every general register outside the list is unchanged. -/
def RegsKeptBut (regs : List RegIdx) (s t : State) : Prop := ∀ r, r ∉ regs → t.reg r = s.reg r

/-- Every byte of memory is unchanged but the `n` bytes that begin at `I`, their addresses reduced as
spec/43_memory_ops.md R200 says. -/
def MemKeptButBlockAtI (n : Nat) (s t : State) : Prop :=
  ∀ a, (∀ k < n, a % s.config.memSize ≠ s.effective k % s.config.memSize) → t.memRead a = s.memRead a

/-! ### The invariant -/

/-- The framebuffer has `FB_H` rows of `FB_W` pixels (spec/10_state.md R30). -/
def FramebufferShaped (c : Config) (fb : Framebuffer) : Prop := fb.length = c.fbH ∧ ∀ row ∈ fb, row.length = c.fbW

/-- What holds in every reachable state (spec/10_state.md R37): a valid configuration, memory in its canonical form, a
bounded stack, a framebuffer of its dimensions, and `I < MEM_SIZE` where memory has at least the 4096 bytes that the
12-bit immediate can name. -/
structure State.Inv (s : State) : Prop where
  configValid : s.config.Valid
  memoryCanonical : Memory.wf s.config s.mem
  stackBounded : s.stack.length ≤ s.config.stackDepth
  framebufferShaped : FramebufferShaped s.config s.fb
  addressRegisterInRange : 4096 ≤ s.config.memSize → s.I.toNat < s.config.memSize

/-! ### The next step -/

/-- The move the next step takes: the head of the agenda, the core's turn when it is empty. -/
def State.nextMove (s : State) : Move := s.agenda.headD .cycle

/-- The instruction the next step executes, if it executes one: the core is `Running`, the move is its own, and the
fetched word decodes. -/
def State.nextInstr (s : State) : Option Instr :=
  if s.run = .running ∧ s.nextMove = .cycle then
    match s.fetch with
    | none => none
    | some w =>
      match decode w with
      | .unknownOpcode _ => none
      | .instr i => some i
  else none

/-- None of the next `k` steps executes an instruction that `sets` picks out. -/
def NoneExecuted (sets : Instr → Bool) (k : Nat) (s : State) : Prop :=
  ∀ j < k, ∀ u, Host.Core.run core j s = .next u → ∀ i, u.nextInstr = some i → sets i = false

/-- `LD DT, Vx`, the one instruction that sets the delay timer (spec/10_state.md R28). -/
def setsDelayTimer : Instr → Bool
  | .ldDtVx _ => true
  | _ => false

/-- `LD ST, Vx`, the one instruction that sets the sound timer (spec/10_state.md R29). -/
def setsSoundTimer : Instr → Bool
  | .ldStVx _ => true
  | _ => false

/-! ### Nested calls (spec/10_state.md R26) -/

/-- The state after `CALL` to each target in turn, where every one of them leaves the machine in its run state. -/
def State.callEach : List Addr12 → State → Option State
  | [], s => some s
  | target :: targets, s =>
    match exec (.call target) s with
    | .next t => if t.run = s.run then State.callEach targets t else none
    | .fault _ => none
    | .refused _ => none

/-! ### The flag writers (spec/10_state.md R22) -/

/-- Does the instruction write `VF` as a flag? -/
def writesFlag (c : Config) : Instr → Bool
  | .addReg _ _ | .sub _ _ | .subn _ _ | .shr _ _ | .shl _ _ | .drw _ _ _ => true
  | .addImm _ _ => decide (c.addImmFlag = .carry)
  | _ => false

/-- Does the instruction name the register as its destination? A register block names `V[0]` to `V[x]`. -/
def namesDestination (r : RegIdx) : Instr → Bool
  | .ldImm x _ | .addImm x _ | .rnd x _ => decide (x = r)
  | .ldReg x _ | .orReg x _ | .andReg x _ | .xorReg x _ | .addReg x _ => decide (x = r)
  | .sub x _ | .subn x _ | .shr x _ | .shl x _ => decide (x = r)
  | .ldVxDt x => decide (x = r)
  | .ldVxMem x => decide (r.toNat ≤ x.toNat)
  | _ => false

/-! ### A sprite on the framebuffer (spec/44_io.md R231, R232) -/

/-- Is bit `7 − c` of sprite row `r` set? -/
def State.spriteBit (s : State) (r c : Nat) : Bool := (s.memRead (s.I.toNat + r)).getLsbD (7 - c)

/-- How many set bits of the sprite of `DRW Vx, Vy, n` fall on the pixel at column `px`, row `py`. -/
def State.spriteHits (s : State) (x y : RegIdx) (n : Nibble) (px py : Nat) : Nat :=
  ((List.range n.toNat).map fun r =>
    (List.range 8).countP fun c =>
      s.spriteBit r c &&
      decide (((s.reg x).toNat % s.config.fbW + c) % s.config.fbW = px) &&
      decide (((s.reg y).toNat % s.config.fbH + r) % s.config.fbH = py)).sum

end Sys2Proof.Machine
end

