-- ==== Sys2Proof/Certificates/Slice0/Obligations.lean ====
section
/-! DEFINITION. The statements for the provers, from the numbered rules of spec/. Each is listed in OBLIGATIONS.json. -/

open Sys2Proof Sys2Proof.Machine

/-! ### Decoding and encoding (spec/30_encoding.md) -/

/-- Every instruction is what the decoder reads from its word, with every operand at every value (R76, R77, R80). -/
def Obligations.DecodeOfEncode : Prop := ∀ i : Instr, decode (encode i) = .instr i

/-- Each assigned word has one meaning, and no bit of it is dropped: the instruction encodes to that word again. -/
def Obligations.EncodeOfDecode : Prop := ∀ (w : Word) (i : Instr), decode w = .instr i → encode i = w

/-- R75, R82: a word decodes to an instruction exactly when a row of the opcode map selects it, and every other word is
`UnknownOpcode` carrying the word. -/
def Obligations.DecodeAcceptsExactlyTheOpcodeMap : Prop :=
  ∀ w : Word,
    ((∃ i, decode w = .instr i) ↔ ∃ row ∈ opcodeTable, row.Selects w) ∧
    ((∀ row ∈ opcodeTable, ¬ row.Selects w) → decode w = .unknownOpcode w)

/-- R78: no two rows of the opcode map have a common word. -/
def Obligations.OpcodeRowsHaveNoCommonWord : Prop :=
  ∀ w : Word, ∀ a ∈ opcodeTable, ∀ b ∈ opcodeTable, a.Selects w → b.Selects w → a = b

/-- R80: the word of an instruction selects the instruction's own row. -/
def Obligations.DecodedWordSelectsItsRow : Prop :=
  ∀ (w : Word) (i : Instr), decode w = .instr i →
    ∃ row, opcodeTable[i.rowIndex]? = some row ∧ row.Selects w

/-- Words of spec/95_test_vectors.md L2.1, one of each family and some unassigned ones. -/
def Obligations.SampleWordsDecode : Prop :=
  decode 0x00E0 = .instr .cls ∧ decode 0x1ABC = .instr (.jp 0xABC) ∧ decode 0x5120 = .instr (.seReg 1 2) ∧
  decode 0x8ABE = .instr (.shl 0xA 0xB) ∧ decode 0xD120 = .instr (.drw 1 2 0) ∧ decode 0xE0A1 = .instr (.sknp 0) ∧
  decode 0xF165 = .instr (.ldVxMem 1) ∧ decode 0x00FF = .unknownOpcode 0x00FF ∧
  decode 0x8AB8 = .unknownOpcode 0x8AB8 ∧ decode 0xF130 = .unknownOpcode 0xF130

/-! ### The cycle (spec/40_fetch_dispatch.md, spec/60_exceptions.md) -/

/-- R54, R101, R104, R112: in `Running`, at the core's turn, when the big-endian word at `pc` decodes to `i`, the step is
`exec i`, on the state whose agenda has lost the move. -/
def Obligations.StepRunsTheDecodedInstruction : Prop :=
  ∀ (s : State) (w : Word) (i : Instr),
    s.run = .running → s.nextMove = .cycle → s.pc.toNat + 2 ≤ s.config.memSize →
    w.toNat = 256 * (s.memRead s.pc.toNat).toNat + (s.memRead (s.pc.toNat + 1)).toNat →
    decode w = .instr i → i.WellFormed →
    step s = exec i (s.setAgenda s.agenda.tail)

/-- R101, R266: a cycle with `pc > MEM_SIZE − 2` halts with `FetchOutOfBounds`, and nothing else changes (R110, R262). -/
def Obligations.FetchBeyondMemoryHalts : Prop :=
  ∀ s : State, s.run = .running → s.nextMove = .cycle → s.config.memSize < s.pc.toNat + 2 →
    ∃ t, step s = .next t ∧ t.run = .halted .fetchOutOfBounds ∧ t.agenda = s.agenda.tail ∧
      KeepsAllBut [.run, .agenda] s t

/-- R102, R267: a cycle whose word no row of the opcode map selects halts with `DecodeFailure(w, pc)`, and nothing else
changes (R110, R262). -/
def Obligations.UnassignedWordHalts : Prop :=
  ∀ (s : State) (w : Word),
    s.run = .running → s.nextMove = .cycle → s.pc.toNat + 2 ≤ s.config.memSize →
    w.toNat = 256 * (s.memRead s.pc.toNat).toNat + (s.memRead (s.pc.toNat + 1)).toNat →
    (∀ row ∈ opcodeTable, ¬ row.Selects w) →
    ∃ t, step s = .next t ∧ t.run = .halted (.decodeFailure w s.pc) ∧ t.agenda = s.agenda.tail ∧
      KeepsAllBut [.run, .agenda] s t

/-- R263: in `Halted` no agent has a step, whatever the agenda holds; a run of any length stops there with the reason.
That the stop is a fault that carries the reason is the model's form (notes/assumptions/6.md). -/
def Obligations.HaltedMachineHasNoStep : Prop :=
  ∀ (s : State) (reason : HaltReason) (k : Nat), s.run = .halted reason →
    Host.Core.run core (k + 1) s = .fault (.halted reason)

/-- The interface of this model: the instruction that the opcode table's word decodes to is what the very next step
runs, in every state of a valid configuration (notes/assumptions/10.md). -/
def Obligations.PlacedWordRunsNext : Prop :=
  ∀ (s : State) (w : Nat) (i : Instr), s.config.Valid → decodeTableWord 16 w = some i →
    step (s.withFetchWord 16 w) = exec i ((s.withFetchWord 16 w).setAgenda (s.withFetchWord 16 w).agenda.tail)

/-! ### The other agents (spec/60_exceptions.md) -/

/-- R276, R279: a tick, in `Running` and in `WaitingForKey`, takes 1 from each timer, not below 0, and changes nothing
else; in `Halted` there is no tick. That a move leaves the agenda as it happens is the model's form
(notes/assumptions/3.md). -/
def Obligations.TickDecrementsBothTimers : Prop :=
  ∀ (s : State) (rest : List Move), s.agenda = .tick :: rest →
    ((∀ reason, s.run ≠ .halted reason) →
      ∃ t, step s = .next t ∧ t.DT.toNat = s.DT.toNat - 1 ∧ t.ST.toNat = s.ST.toNat - 1 ∧ t.agenda = rest ∧
        KeepsAllBut [.DT, .ST, .agenda] s t) ∧
    (∀ reason, s.run = .halted reason → ∀ t, step s ≠ .next t)

/-- R281: a key snapshot replaces `keys` whenever `run` is not `Halted`, and changes nothing else; the agenda is the
model's form of the order of the moves (notes/assumptions/3.md). -/
def Obligations.KeySnapshotReplacesKeys : Prop :=
  ∀ (s : State) (keys : Vector Bool 16) (rest : List Move),
    (∀ reason, s.run ≠ .halted reason) → s.agenda = .keySnapshot keys :: rest →
    ∃ t, step s = .next t ∧ t.keys = keys ∧ t.agenda = rest ∧ KeepsAllBut [.keys, .agenda] s t

/-- R283: a key press completes the `LD Vx, K` that waits: the key's index goes to the register, `pc` moves past the
instruction, the core runs, and nothing else changes, the key array least of all; the agenda is the model's form of the
order of the moves (notes/assumptions/3.md). -/
def Obligations.KeyPressCompletesTheWait : Prop :=
  ∀ (s : State) (r : RegIdx) (k : Nibble) (rest : List Move),
    s.run = .waitingForKey r → s.agenda = .keyPress k :: rest →
    ∃ t, step s = .next t ∧ (t.reg r).toNat = k.toNat ∧ t.pc.toNat = (s.pc.toNat + 2) % 2 ^ 16 ∧
      t.run = .running ∧ t.agenda = rest ∧ RegsKeptBut [r] s t ∧ KeepsAllBut [.V, .pc, .run, .agenda] s t

/-- R284: a key press in `Running` has no effect on the state, and in `Halted` there is no step; the agenda is the
model's form of the order of the moves (notes/assumptions/3.md). -/
def Obligations.KeyPressInRunningHasNoEffect : Prop :=
  ∀ (s : State) (k : Nibble) (rest : List Move), s.agenda = .keyPress k :: rest →
    (s.run = .running → ∃ t, step s = .next t ∧ t.agenda = rest ∧ KeepsAllBut [.agenda] s t) ∧
    (∀ reason, s.run = .halted reason → ∀ t, step s ≠ .next t)

/-- R285: while the core waits for a key, whatever ticks, snapshots and turns of the core come, no step but a key press
moves `pc`, wakes the core, or changes a register, memory, the stack or the framebuffer. That a turn of a waiting core
passes is the model's choice (notes/assumptions/5.md). -/
def Obligations.WaitingCoreStandsUntilAKeyPress : Prop :=
  ∀ (k : Nat) (s : State) (r : RegIdx), s.run = .waitingForKey r → (∀ key, Move.keyPress key ∉ s.agenda.take k) →
    ∃ t, Host.Core.run core k s = .next t ∧ t.agenda = s.agenda.drop k ∧
      KeepsAllBut [.DT, .ST, .keys, .agenda] s t

/-- R277: over any run of steps with `n` ticks among them and no `LD DT, Vx`, the delay timer falls by exactly
min(n, its first value); the sound timer likewise with no `LD ST, Vx` (R276). Any number of cycles may lie between. -/
def Obligations.TimersCountTheirTicks : Prop :=
  ∀ (k : Nat) (s t : State), Host.Core.run core k s = .next t →
    (NoneExecuted setsDelayTimer k s →
      t.DT.toNat = s.DT.toNat - min ((s.agenda.take k).count .tick) s.DT.toNat) ∧
    (NoneExecuted setsSoundTimer k s →
      t.ST.toNat = s.ST.toNat - min ((s.agenda.take k).count .tick) s.ST.toNat)

/-! ### Creation and reset (spec/70_reset_and_hazards.md, spec/10_state.md R36) -/

/-- R36, R300, R303: creation from a valid configuration and an image that fits gives every field its value. -/
def Obligations.CreationSetsEveryField : Prop :=
  ∀ (c : Config) (image : List Byte), c.Valid → c.ImageFits image →
    ∃ t, create c image = .next t ∧ t.config = c ∧ (∀ r, t.reg r = 0) ∧ t.I = 0 ∧ t.pc = c.loadOffset ∧
      t.DT = 0 ∧ t.ST = 0 ∧ t.stack = [] ∧ t.run = .running ∧ (∀ k, t.key k = false) ∧
      FramebufferShaped c t.fb ∧ (∀ px py, t.pixel px py = false) ∧
      (∀ j (_ : j < 80), t.memRead (c.fontBase.toNat + j) = c.font[j]) ∧
      (∀ j (_ : j < image.length), t.memRead (c.loadOffset.toNat + j) = image[j]) ∧
      (∀ a < c.memSize, (a < c.fontBase.toNat ∨ c.fontBase.toNat + 80 ≤ a) →
        (a < c.loadOffset.toNat ∨ c.loadOffset.toNat + image.length ≤ a) → t.memRead a = 0)

/-- R6, R301: a configuration is refused exactly when it is invalid, whatever its behavioural switches, and an image
that does not fit is refused; no state is created. -/
def Obligations.CreationRefusesWhatIsMalformed : Prop :=
  ∀ (c : Config) (image : List Byte),
    (create c image = .refused .invalidConfiguration ↔
      ¬ (c.fontBase.toNat + 80 ≤ c.loadOffset.toNat ∧ (c.loadOffset.toNat : Int) ≤ c.memSize - 2 ∧
        c.memSize ≤ 65536 ∧ 1 ≤ c.stackDepth ∧ 1 ≤ c.fbW ∧ 1 ≤ c.fbH)) ∧
    (c.Valid → c.memSize < c.loadOffset.toNat + image.length → create c image = .refused .imageTooLarge)

/-- The state after reset meets the invariant, and it is what creation from an empty image gives (R36, R301). -/
def Obligations.ResetMeetsTheInvariant : Prop :=
  State.reset.Inv ∧ create Config.atReset [] = .next State.reset

/-- Whatever creation gives meets the invariant. -/
def Obligations.CreationMeetsTheInvariant : Prop :=
  ∀ (c : Config) (image : List Byte) (s : State), create c image = .next s → s.Inv

/-- R37: every step of every agent keeps the invariant. -/
def Obligations.StepKeepsTheInvariant : Prop := ∀ s t : State, s.Inv → step s = .next t → t.Inv

/-- R5, R33: the configuration is "not mutable mid-run": no step of any agent changes it. -/
def Obligations.ConfigurationNeverChanges : Prop := ∀ s t : State, step s = .next t → t.config = s.config

/-- R304: after any run from creation, whatever moves the environment chooses for it, an explicit reset with the same
image gives the created state again. -/
def Obligations.ExplicitResetRestoresCreation : Prop :=
  ∀ (c : Config) (image : List Byte) (moves : List Move) (s t : State) (k : Nat), create c image = .next s →
    Host.Core.run core k (s.setAgenda moves) = .next t → explicitReset t image = .next s

/-! ### Arithmetic and logic (spec/41_alu.md) -/

/-- R135. -/
def Obligations.LoadImmediateWritesItsRegister : Prop :=
  ∀ (x : RegIdx) (nn : Byte) (s : State),
    decode (0x6#4 ++ x ++ nn) = .instr (.ldImm x nn) ∧
    ∃ t, exec (.ldImm x nn) s = .next t ∧ t.reg x = nn ∧ t.pc.toNat = (s.pc.toNat + 2) % 2 ^ 16 ∧
      RegsKeptBut [x] s t ∧ KeepsAllBut [.V, .pc] s t

/-- R136, for both values of `ADD_IMM_FLAG`. -/
def Obligations.AddImmediateWrapsAndFlagsByParameter : Prop :=
  ∀ (x : RegIdx) (nn : Byte) (s : State),
    decode (0x7#4 ++ x ++ nn) = .instr (.addImm x nn) ∧
    ∃ t, exec (.addImm x nn) s = .next t ∧ t.pc.toNat = (s.pc.toNat + 2) % 2 ^ 16 ∧ KeepsAllBut [.V, .pc] s t ∧
      (s.config.addImmFlag = .unchanged →
        (t.reg x).toNat = ((s.reg x).toNat + nn.toNat) % 2 ^ 8 ∧ RegsKeptBut [x] s t) ∧
      (s.config.addImmFlag = .carry →
        (x ≠ vf → (t.reg x).toNat = ((s.reg x).toNat + nn.toNat) % 2 ^ 8) ∧
        t.reg vf = (if (s.reg x).toNat + nn.toNat > 255 then 1 else 0) ∧ RegsKeptBut [x, vf] s t)

/-- R137. -/
def Obligations.LoadRegisterCopies : Prop :=
  ∀ (x y : RegIdx) (s : State),
    decode (0x8#4 ++ x ++ y ++ 0x0#4) = .instr (.ldReg x y) ∧
    ∃ t, exec (.ldReg x y) s = .next t ∧ t.reg x = s.reg y ∧ t.pc.toNat = (s.pc.toNat + 2) % 2 ^ 16 ∧
      RegsKeptBut [x] s t ∧ KeepsAllBut [.V, .pc] s t

/-- R138, R139, R140: bit by bit; `VF` is written only as the destination (R134). -/
def Obligations.LogicActsOnEveryBit : Prop :=
  ∀ (x y : RegIdx) (s : State),
    decode (0x8#4 ++ x ++ y ++ 0x1#4) = .instr (.orReg x y) ∧
    decode (0x8#4 ++ x ++ y ++ 0x2#4) = .instr (.andReg x y) ∧
    decode (0x8#4 ++ x ++ y ++ 0x3#4) = .instr (.xorReg x y) ∧
    (∃ t, exec (.orReg x y) s = .next t ∧
      (∀ b, (t.reg x).getLsbD b = ((s.reg x).getLsbD b || (s.reg y).getLsbD b)) ∧
      t.pc.toNat = (s.pc.toNat + 2) % 2 ^ 16 ∧ RegsKeptBut [x] s t ∧ KeepsAllBut [.V, .pc] s t) ∧
    (∃ t, exec (.andReg x y) s = .next t ∧
      (∀ b, (t.reg x).getLsbD b = ((s.reg x).getLsbD b && (s.reg y).getLsbD b)) ∧
      t.pc.toNat = (s.pc.toNat + 2) % 2 ^ 16 ∧ RegsKeptBut [x] s t ∧ KeepsAllBut [.V, .pc] s t) ∧
    (∃ t, exec (.xorReg x y) s = .next t ∧
      (∀ b, (t.reg x).getLsbD b = ((s.reg x).getLsbD b ^^ (s.reg y).getLsbD b)) ∧
      t.pc.toNat = (s.pc.toNat + 2) % 2 ^ 16 ∧ RegsKeptBut [x] s t ∧ KeepsAllBut [.V, .pc] s t)

/-- R141, with the carry of R131, written last (R133). -/
def Obligations.AddWrapsAndSetsTheCarry : Prop :=
  ∀ (x y : RegIdx) (s : State),
    decode (0x8#4 ++ x ++ y ++ 0x4#4) = .instr (.addReg x y) ∧
    ∃ t, exec (.addReg x y) s = .next t ∧
      (x ≠ vf → (t.reg x).toNat = ((s.reg x).toNat + (s.reg y).toNat) % 2 ^ 8) ∧
      t.reg vf = (if (s.reg x).toNat + (s.reg y).toNat > 255 then 1 else 0) ∧
      t.pc.toNat = (s.pc.toNat + 2) % 2 ^ 16 ∧ RegsKeptBut [x, vf] s t ∧ KeepsAllBut [.V, .pc] s t

/-- R142, with the not-borrow of R132, written last (R133). -/
def Obligations.SubtractWrapsAndSetsNotBorrow : Prop :=
  ∀ (x y : RegIdx) (s : State),
    decode (0x8#4 ++ x ++ y ++ 0x5#4) = .instr (.sub x y) ∧
    ∃ t, exec (.sub x y) s = .next t ∧
      (x ≠ vf → ((t.reg x).toNat : Int) = ((s.reg x).toNat - (s.reg y).toNat : Int) % 2 ^ 8) ∧
      t.reg vf = (if (s.reg x).toNat ≥ (s.reg y).toNat then 1 else 0) ∧
      t.pc.toNat = (s.pc.toNat + 2) % 2 ^ 16 ∧ RegsKeptBut [x, vf] s t ∧ KeepsAllBut [.V, .pc] s t

/-- R143: the operands the other way round. -/
def Obligations.ReverseSubtractWrapsAndSetsNotBorrow : Prop :=
  ∀ (x y : RegIdx) (s : State),
    decode (0x8#4 ++ x ++ y ++ 0x7#4) = .instr (.subn x y) ∧
    ∃ t, exec (.subn x y) s = .next t ∧
      (x ≠ vf → ((t.reg x).toNat : Int) = ((s.reg y).toNat - (s.reg x).toNat : Int) % 2 ^ 8) ∧
      t.reg vf = (if (s.reg y).toNat ≥ (s.reg x).toNat then 1 else 0) ∧
      t.pc.toNat = (s.pc.toNat + 2) % 2 ^ 16 ∧ RegsKeptBut [x, vf] s t ∧ KeepsAllBut [.V, .pc] s t

/-- R144, for both values of `SHIFT_QUIRK`. -/
def Obligations.ShiftRightHalvesItsSource : Prop :=
  ∀ (x y : RegIdx) (s : State) (src : Byte),
    (s.config.shiftQuirk = .legacy → src = s.reg y) → (s.config.shiftQuirk = .inPlace → src = s.reg x) →
    decode (0x8#4 ++ x ++ y ++ 0x6#4) = .instr (.shr x y) ∧
    ∃ t, exec (.shr x y) s = .next t ∧
      (x ≠ vf → (t.reg x).toNat = src.toNat / 2) ∧ (t.reg vf).toNat = src.toNat % 2 ∧
      t.pc.toNat = (s.pc.toNat + 2) % 2 ^ 16 ∧ RegsKeptBut [x, vf] s t ∧ KeepsAllBut [.V, .pc] s t

/-- R145, for both values of `SHIFT_QUIRK`. -/
def Obligations.ShiftLeftDoublesItsSource : Prop :=
  ∀ (x y : RegIdx) (s : State) (src : Byte),
    (s.config.shiftQuirk = .legacy → src = s.reg y) → (s.config.shiftQuirk = .inPlace → src = s.reg x) →
    decode (0x8#4 ++ x ++ y ++ 0xE#4) = .instr (.shl x y) ∧
    ∃ t, exec (.shl x y) s = .next t ∧
      (x ≠ vf → (t.reg x).toNat = 2 * src.toNat % 2 ^ 8) ∧ (t.reg vf).toNat = src.toNat / 128 ∧
      t.pc.toNat = (s.pc.toNat + 2) % 2 ^ 16 ∧ RegsKeptBut [x, vf] s t ∧ KeepsAllBut [.V, .pc] s t

/-! ### Control transfer (spec/42_branch.md) -/

/-- R173, R269: `RET` continues at the popped address; on an empty stack it halts and nothing but `run` changes. -/
def Obligations.ReturnPopsItsAddress : Prop :=
  ∀ s : State,
    decode 0x00EE = .instr .ret ∧
    (∀ top rest, s.stack = top :: rest →
      ∃ t, exec .ret s = .next t ∧ t.pc = top ∧ t.stack = rest ∧ KeepsAllBut [.pc, .stack] s t) ∧
    (s.stack = [] → ∃ t, exec .ret s = .next t ∧ t.run = .halted .stackUnderflow ∧ KeepsAllBut [.run] s t)

/-- R174. -/
def Obligations.JumpGoesToItsAddress : Prop :=
  ∀ (nnn : Addr12) (s : State),
    decode (0x1#4 ++ nnn) = .instr (.jp nnn) ∧
    ∃ t, exec (.jp nnn) s = .next t ∧ t.pc.toNat = nnn.toNat ∧ KeepsAllBut [.pc] s t

/-- R175, R268: `CALL` pushes the address of the next instruction; on a full stack it halts and nothing but `run`
changes. -/
def Obligations.CallPushesTheNextAddress : Prop :=
  ∀ (nnn : Addr12) (s : State),
    decode (0x2#4 ++ nnn) = .instr (.call nnn) ∧
    (s.stack.length ≠ s.config.stackDepth →
      ∃ t, exec (.call nnn) s = .next t ∧ t.pc.toNat = nnn.toNat ∧
        (∃ back : Word, back.toNat = (s.pc.toNat + 2) % 2 ^ 16 ∧ t.stack = back :: s.stack) ∧
        KeepsAllBut [.pc, .stack] s t) ∧
    (s.stack.length = s.config.stackDepth →
      ∃ t, exec (.call nnn) s = .next t ∧ t.run = .halted .stackOverflow ∧ KeepsAllBut [.run] s t)

/-- R176: the sum is reduced mod 2^16 only. -/
def Obligations.JumpWithOffsetAddsV0 : Prop :=
  ∀ (nnn : Addr12) (s : State),
    decode (0xB#4 ++ nnn) = .instr (.jpV0 nnn) ∧
    ∃ t, exec (.jpV0 nnn) s = .next t ∧ t.pc.toNat = (nnn.toNat + (s.reg 0).toNat) % 2 ^ 16 ∧ KeepsAllBut [.pc] s t

/-- R177, R178, with the skip of R171. -/
def Obligations.SkipOnImmediate : Prop :=
  ∀ (x : RegIdx) (nn : Byte) (s : State),
    decode (0x3#4 ++ x ++ nn) = .instr (.seImm x nn) ∧ decode (0x4#4 ++ x ++ nn) = .instr (.sneImm x nn) ∧
    (∃ t, exec (.seImm x nn) s = .next t ∧
      t.pc.toNat = (s.pc.toNat + if (s.reg x).toNat = nn.toNat then 4 else 2) % 2 ^ 16 ∧ KeepsAllBut [.pc] s t) ∧
    (∃ t, exec (.sneImm x nn) s = .next t ∧
      t.pc.toNat = (s.pc.toNat + if (s.reg x).toNat = nn.toNat then 2 else 4) % 2 ^ 16 ∧ KeepsAllBut [.pc] s t)

/-- R179, R180, with the skip of R171. -/
def Obligations.SkipOnRegister : Prop :=
  ∀ (x y : RegIdx) (s : State),
    decode (0x5#4 ++ x ++ y ++ 0x0#4) = .instr (.seReg x y) ∧
    decode (0x9#4 ++ x ++ y ++ 0x0#4) = .instr (.sneReg x y) ∧
    (∃ t, exec (.seReg x y) s = .next t ∧
      t.pc.toNat = (s.pc.toNat + if (s.reg x).toNat = (s.reg y).toNat then 4 else 2) % 2 ^ 16 ∧
      KeepsAllBut [.pc] s t) ∧
    (∃ t, exec (.sneReg x y) s = .next t ∧
      t.pc.toNat = (s.pc.toNat + if (s.reg x).toNat = (s.reg y).toNat then 2 else 4) % 2 ^ 16 ∧
      KeepsAllBut [.pc] s t)

/-- R173, R175: a `RET` that finds the stack as a `CALL` left it continues after that `CALL` with the stack it had. -/
def Obligations.ReturnUndoesCall : Prop :=
  ∀ (nnn : Addr12) (s t u : State), s.stack.length ≠ s.config.stackDepth → exec (.call nnn) s = .next t →
    u.stack = t.stack →
    ∃ v, exec .ret u = .next v ∧ v.pc.toNat = (s.pc.toNat + 2) % 2 ^ 16 ∧ v.stack = s.stack

/-- R26: as many consecutive calls as the stack has free entries succeed, and one more fails with `StackOverflow`. With
an empty stack and the decided depth these are 16 calls and the 17th. -/
def Obligations.CallsSucceedUpToTheStackDepth : Prop :=
  ∀ (targets : List Addr12) (nnn : Addr12) (s : State), s.run = .running →
    s.stack.length + targets.length = s.config.stackDepth →
    ∃ t u, s.callEach targets = some t ∧ t.stack.length = s.config.stackDepth ∧
      exec (.call nnn) t = .next u ∧ u.run = .halted .stackOverflow ∧ u.stack = t.stack

/-! ### The address register and memory (spec/43_memory_ops.md) -/

/-- R201. -/
def Obligations.LoadAddressWritesI : Prop :=
  ∀ (nnn : Addr12) (s : State),
    decode (0xA#4 ++ nnn) = .instr (.ldI nnn) ∧
    ∃ t, exec (.ldI nnn) s = .next t ∧ t.I.toNat = nnn.toNat ∧ t.pc.toNat = (s.pc.toNat + 2) % 2 ^ 16 ∧
      KeepsAllBut [.I, .pc] s t

/-- R202: reduced mod `MEM_SIZE`, and no register is written, `VF` among them. -/
def Obligations.AddToAddressWrapsAtMemorySize : Prop :=
  ∀ (x : RegIdx) (s : State), s.config.Valid →
    decode (0xF#4 ++ x ++ 0x1E#8) = .instr (.addI x) ∧
    ∃ t, exec (.addI x) s = .next t ∧ t.I.toNat = (s.I.toNat + (s.reg x).toNat) % s.config.memSize ∧
      t.pc.toNat = (s.pc.toNat + 2) % 2 ^ 16 ∧ KeepsAllBut [.I, .pc] s t

/-- R203: the glyph of the low nibble. -/
def Obligations.LoadGlyphAddress : Prop :=
  ∀ (x : RegIdx) (s : State), s.config.Valid →
    decode (0xF#4 ++ x ++ 0x29#8) = .instr (.ldF x) ∧
    ∃ t, exec (.ldF x) s = .next t ∧ t.I.toNat = s.config.fontBase.toNat + 5 * ((s.reg x).toNat % 16) ∧
      t.pc.toNat = (s.pc.toNat + 2) % 2 ^ 16 ∧ KeepsAllBut [.I, .pc] s t

/-- R204: hundreds, tens and units at `I`, `I + 1`, `I + 2`, and no other byte changes. -/
def Obligations.StoreDecimalDigits : Prop :=
  ∀ (x : RegIdx) (s : State), s.config.Valid →
    decode (0xF#4 ++ x ++ 0x33#8) = .instr (.ldB x) ∧
    ∃ t, exec (.ldB x) s = .next t ∧
      (t.memRead (s.effective 0)).toNat = (s.reg x).toNat / 100 ∧
      (t.memRead (s.effective 1)).toNat = (s.reg x).toNat / 10 % 10 ∧
      (t.memRead (s.effective 2)).toNat = (s.reg x).toNat % 10 ∧
      t.pc.toNat = (s.pc.toNat + 2) % 2 ^ 16 ∧ MemKeptButBlockAtI 3 s t ∧ KeepsAllBut [.mem, .pc] s t

/-- R205, for both values of `LOADSTORE_INC`. -/
def Obligations.StoreRegisterBlock : Prop :=
  ∀ (x : RegIdx) (s : State), s.config.Valid →
    decode (0xF#4 ++ x ++ 0x55#8) = .instr (.ldMemVx x) ∧
    ∃ t, exec (.ldMemVx x) s = .next t ∧
      (∀ k : RegIdx, k.toNat ≤ x.toNat → t.memRead (s.effective k.toNat) = s.reg k) ∧
      t.I.toNat = (if s.config.loadStoreInc then (s.I.toNat + x.toNat + 1) % s.config.memSize else s.I.toNat) ∧
      t.pc.toNat = (s.pc.toNat + 2) % 2 ^ 16 ∧ MemKeptButBlockAtI (x.toNat + 1) s t ∧
      KeepsAllBut [.mem, .I, .pc] s t

/-- R206, for both values of `LOADSTORE_INC`. -/
def Obligations.LoadRegisterBlock : Prop :=
  ∀ (x : RegIdx) (s : State), s.config.Valid →
    decode (0xF#4 ++ x ++ 0x65#8) = .instr (.ldVxMem x) ∧
    ∃ t, exec (.ldVxMem x) s = .next t ∧
      (∀ k : RegIdx, t.reg k = if k.toNat ≤ x.toNat then s.memRead (s.effective k.toNat) else s.reg k) ∧
      t.I.toNat = (if s.config.loadStoreInc then (s.I.toNat + x.toNat + 1) % s.config.memSize else s.I.toNat) ∧
      t.pc.toNat = (s.pc.toNat + 2) % 2 ^ 16 ∧ KeepsAllBut [.V, .I, .pc] s t

/-- R62, R311: the next fetch sees what a register block has just stored, in either byte of the word. -/
def Obligations.StoredBytesAreFetched : Prop :=
  ∀ (x : RegIdx) (s t : State) (k : RegIdx), s.config.Valid → exec (.ldMemVx x) s = .next t → k.toNat ≤ x.toNat →
    t.pc.toNat + 2 ≤ s.config.memSize →
    ∃ w, t.fetch = some w ∧
      (s.effective k.toNat % s.config.memSize = t.pc.toNat → w.toNat / 256 = (s.reg k).toNat) ∧
      (s.effective k.toNat % s.config.memSize = t.pc.toNat + 1 → w.toNat % 256 = (s.reg k).toNat)

/-! ### Display, keys, timers and random (spec/44_io.md) -/

/-- R230. -/
def Obligations.ClearScreenClearsEveryPixel : Prop :=
  ∀ s : State,
    decode 0x00E0 = .instr .cls ∧
    ∃ t, exec .cls s = .next t ∧ FramebufferShaped s.config t.fb ∧ (∀ px py, t.pixel px py = false) ∧
      t.pc.toNat = (s.pc.toNat + 2) % 2 ^ 16 ∧ KeepsAllBut [.fb, .pc] s t

/-- R231, R232: each pixel is toggled once for each set sprite bit that falls on it; `VF` is 1 when some toggle met a lit
pixel, that is when a pixel that was lit is hit, or a pixel is hit twice (a sprite wrapped onto itself), else 0. The
coordinates are those before `VF` is overwritten. The clause of a pixel hit twice, which decides `VF` on a framebuffer
smaller than the sprite, follows R232's loops where R233's first sentence would give 0: the model's reading
(notes/assumptions/15.md). -/
def Obligations.DrawTogglesTheSpritePixels : Prop :=
  ∀ (x y : RegIdx) (n : Nibble) (s : State), s.config.Valid → FramebufferShaped s.config s.fb →
    decode (0xD#4 ++ x ++ y ++ n) = .instr (.drw x y n) ∧
    ∃ t, exec (.drw x y n) s = .next t ∧ FramebufferShaped s.config t.fb ∧
      (∀ px < s.config.fbW, ∀ py < s.config.fbH,
        t.pixel px py = (s.pixel px py ^^ decide (s.spriteHits x y n px py % 2 = 1))) ∧
      (t.reg vf = 0 ∨ t.reg vf = 1) ∧
      (t.reg vf = 1 ↔ ∃ px < s.config.fbW, ∃ py < s.config.fbH,
        (s.pixel px py = true ∧ 1 ≤ s.spriteHits x y n px py) ∨ 2 ≤ s.spriteHits x y n px py) ∧
      t.pc.toNat = (s.pc.toNat + 2) % 2 ^ 16 ∧ RegsKeptBut [vf] s t ∧ KeepsAllBut [.V, .fb, .pc] s t

/-- R233, first sentence, on a framebuffer at least as large as the sprite (as the decided one is): `VF` is 1 exactly
when a pixel lit before the draw is unlit after it. -/
def Obligations.CollisionIsAPixelTurnedOff : Prop :=
  ∀ (x y : RegIdx) (n : Nibble) (s t : State), s.config.Valid → FramebufferShaped s.config s.fb →
    8 ≤ s.config.fbW → n.toNat ≤ s.config.fbH → exec (.drw x y n) s = .next t →
    (t.reg vf = 0 ∨ t.reg vf = 1) ∧
    (t.reg vf = 1 ↔ ∃ px < s.config.fbW, ∃ py < s.config.fbH, s.pixel px py = true ∧ t.pixel px py = false)

/-- R233: a second draw of the same sprite at the same coordinates restores the framebuffer; it reports a collision when
the first draw lit a pixel. The last clause is the model's reading (notes/assumptions/14.md). -/
def Obligations.DrawingTwiceRestoresTheFramebuffer : Prop :=
  ∀ (x y : RegIdx) (n : Nibble) (s t u : State), s.config.Valid → FramebufferShaped s.config s.fb →
    exec (.drw x y n) s = .next t →
    u.fb = t.fb → u.config = s.config → u.I = s.I → (∀ a, u.memRead a = s.memRead a) →
    u.reg x = s.reg x → u.reg y = s.reg y →
    ∃ v, exec (.drw x y n) u = .next v ∧ v.fb = s.fb ∧
      ((∃ px < s.config.fbW, ∃ py < s.config.fbH, s.pixel px py = false ∧ t.pixel px py = true) → v.reg vf = 1)

/-- R234, R235: the key of the low nibble. -/
def Obligations.SkipOnKey : Prop :=
  ∀ (x : RegIdx) (s : State) (k : Nibble), k.toNat = (s.reg x).toNat % 16 →
    decode (0xE#4 ++ x ++ 0x9E#8) = .instr (.skp x) ∧ decode (0xE#4 ++ x ++ 0xA1#8) = .instr (.sknp x) ∧
    (∃ t, exec (.skp x) s = .next t ∧
      t.pc.toNat = (s.pc.toNat + if s.key k = true then 4 else 2) % 2 ^ 16 ∧ KeepsAllBut [.pc] s t) ∧
    (∃ t, exec (.sknp x) s = .next t ∧
      t.pc.toNat = (s.pc.toNat + if s.key k = true then 2 else 4) % 2 ^ 16 ∧ KeepsAllBut [.pc] s t)

/-- R236, R109: the core waits with `pc` at the instruction; no key already held resolves it, and a press of key `k`
does: the register takes its index and the core runs after the instruction. -/
def Obligations.WaitForKeySuspends : Prop :=
  ∀ (x : RegIdx) (s : State),
    decode (0xF#4 ++ x ++ 0x0A#8) = .instr (.ldVxK x) ∧
    ∃ t, exec (.ldVxK x) s = .next t ∧ t.run = .waitingForKey x ∧ KeepsAllBut [.run] s t ∧
      ∀ (k : Nibble) (rest : List Move), ∃ u, step (t.setAgenda (.keyPress k :: rest)) = .next u ∧
        (u.reg x).toNat = k.toNat ∧ u.pc.toNat = (s.pc.toNat + 2) % 2 ^ 16 ∧ u.run = .running

/-- R237, R238, R239. -/
def Obligations.TimerMoves : Prop :=
  ∀ (x : RegIdx) (s : State),
    decode (0xF#4 ++ x ++ 0x07#8) = .instr (.ldVxDt x) ∧ decode (0xF#4 ++ x ++ 0x15#8) = .instr (.ldDtVx x) ∧
    decode (0xF#4 ++ x ++ 0x18#8) = .instr (.ldStVx x) ∧
    (∃ t, exec (.ldVxDt x) s = .next t ∧ t.reg x = s.DT ∧ t.pc.toNat = (s.pc.toNat + 2) % 2 ^ 16 ∧
      RegsKeptBut [x] s t ∧ KeepsAllBut [.V, .pc] s t) ∧
    (∃ t, exec (.ldDtVx x) s = .next t ∧ t.DT = s.reg x ∧ t.pc.toNat = (s.pc.toNat + 2) % 2 ^ 16 ∧
      KeepsAllBut [.DT, .pc] s t) ∧
    (∃ t, exec (.ldStVx x) s = .next t ∧ t.ST = s.reg x ∧ t.pc.toNat = (s.pc.toNat + 2) % 2 ^ 16 ∧
      KeepsAllBut [.ST, .pc] s t)

/-- R240: the free byte of this drawing, masked; no bit outside the mask is ever set; the next drawing takes another free
byte. It holds whatever the free bytes are; their form is the model's (notes/assumptions/4.md). -/
def Obligations.RandomIsMasked : Prop :=
  ∀ (x : RegIdx) (nn : Byte) (s : State),
    decode (0xC#4 ++ x ++ nn) = .instr (.rnd x nn) ∧
    ∃ t, exec (.rnd x nn) s = .next t ∧ t.reg x = Config.random8 s.draws &&& nn ∧
      (∀ b, nn.getLsbD b = false → (t.reg x).getLsbD b = false) ∧ t.draws = s.draws + 1 ∧
      t.pc.toNat = (s.pc.toNat + 2) % 2 ^ 16 ∧ RegsKeptBut [x] s t ∧ KeepsAllBut [.V, .pc, .draws] s t

/-! ### Rules of the whole machine -/

/-- R22, R134: an instruction changes a register only as its destination, or `VF` as its flag, which is then 0 or 1; no
instruction is refused and none faults. -/
def Obligations.RegistersChangeOnlyAsDestinationOrFlag : Prop :=
  ∀ (i : Instr) (s : State), ∃ t, exec i s = .next t ∧
    (∀ r, namesDestination r i = false → (r = vf → writesFlag s.config i = false) → t.reg r = s.reg r) ∧
    (writesFlag s.config i = true → t.reg vf = 0 ∨ t.reg vf = 1)

/-- R52, R30, R31, R207: memory is changed only by `LD B` and `LD [I]`, the framebuffer only by `CLS` and `DRW`, the
stack only by `CALL` and `RET`, the keys by no instruction. -/
def Obligations.SpacesChangeOnlyByTheirInstructions : Prop :=
  ∀ (i : Instr) (s t : State), exec i s = .next t →
    ((∀ x, i ≠ .ldB x) → (∀ x, i ≠ .ldMemVx x) → ∀ a, t.memRead a = s.memRead a) ∧
    (i ≠ .cls → (∀ x y n, i ≠ .drw x y n) → t.fb = s.fb) ∧
    ((∀ nnn, i ≠ .call nnn) → i ≠ .ret → t.stack = s.stack) ∧
    t.keys = s.keys

/-- R23, R28, R29, R112: `I` is written only by `LD I`, `ADD I`, `LD F` and, when `LOADSTORE_INC`, the register blocks;
a cycle touches `DT` only in `LD DT` and `ST` only in `LD ST`. -/
def Obligations.AddressRegisterAndTimersHaveTheirWriters : Prop :=
  ∀ (i : Instr) (s t : State), exec i s = .next t →
    ((∀ nnn, i ≠ .ldI nnn) → (∀ x, i ≠ .addI x) → (∀ x, i ≠ .ldF x) →
      (s.config.loadStoreInc = true → (∀ x, i ≠ .ldMemVx x) ∧ (∀ x, i ≠ .ldVxMem x)) → t.I = s.I) ∧
    ((∀ x, i ≠ .ldDtVx x) → t.DT = s.DT) ∧ ((∀ x, i ≠ .ldStVx x) → t.ST = s.ST)

/-- R106 to R110, R268, R269, R273: an instruction leaves the run state alone but for `LD Vx, K`, which waits, a `CALL` on
a full stack and a `RET` on an empty one, which halt. -/
def Obligations.RunStateChangesOnlyByWaitOrStackFailure : Prop :=
  ∀ (i : Instr) (s t : State), exec i s = .next t →
    t.run = s.run ∨ (∃ x, i = .ldVxK x ∧ t.run = .waitingForKey x) ∨
    (∃ nnn, i = .call nnn ∧ s.stack.length = s.config.stackDepth ∧ t.run = .halted .stackOverflow) ∨
    (i = .ret ∧ s.stack = [] ∧ t.run = .halted .stackUnderflow)
end

