-- ==== Sys2Proof/Laws/Decode.lean ====
section
/-! SUPPORT. The fields of a word put together from fields (R71, R74), the bytes of a word (R54), and the word put
together from its own fields. -/

namespace Sys2Proof

/-! ### Words of the format XNN -/

section
variable (f x : Nibble) (nn : Byte)

theorem toNat_xnn : (f ++ x ++ nn : Word).toNat = f.toNat * 4096 + x.toNat * 256 + nn.toNat := by
  simp only [BitVec.toNat_append]
  rw [← Nat.shiftLeft_add_eq_or_of_lt x.isLt, ← Nat.shiftLeft_add_eq_or_of_lt nn.isLt]
  simp only [Nat.shiftLeft_eq]
  omega

@[simp] theorem fieldF_xnn : fieldF (f ++ x ++ nn) = f := by
  apply BitVec.eq_of_toNat_eq
  simp only [fieldF, BitVec.extractLsb'_toNat, toNat_xnn, Nat.shiftRight_eq_div_pow]
  omega

@[simp] theorem fieldX_xnn : fieldX (f ++ x ++ nn) = x := by
  apply BitVec.eq_of_toNat_eq
  simp only [fieldX, BitVec.extractLsb'_toNat, toNat_xnn, Nat.shiftRight_eq_div_pow]
  omega

@[simp] theorem fieldNN_xnn : fieldNN (f ++ x ++ nn) = nn := by
  apply BitVec.eq_of_toNat_eq
  simp only [fieldNN, BitVec.extractLsb'_toNat, toNat_xnn, Nat.shiftRight_eq_div_pow]
  omega

end

/-! ### Words of the formats XY and XYN -/

section
variable (f x y n : Nibble)

theorem toNat_xyn :
    (f ++ x ++ y ++ n : Word).toNat = f.toNat * 4096 + x.toNat * 256 + y.toNat * 16 + n.toNat := by
  simp only [BitVec.toNat_append]
  rw [← Nat.shiftLeft_add_eq_or_of_lt x.isLt, ← Nat.shiftLeft_add_eq_or_of_lt y.isLt,
    ← Nat.shiftLeft_add_eq_or_of_lt n.isLt]
  simp only [Nat.shiftLeft_eq]
  omega

@[simp] theorem fieldF_xyn : fieldF (f ++ x ++ y ++ n) = f := by
  apply BitVec.eq_of_toNat_eq
  simp only [fieldF, BitVec.extractLsb'_toNat, toNat_xyn, Nat.shiftRight_eq_div_pow]
  omega

@[simp] theorem fieldX_xyn : fieldX (f ++ x ++ y ++ n) = x := by
  apply BitVec.eq_of_toNat_eq
  simp only [fieldX, BitVec.extractLsb'_toNat, toNat_xyn, Nat.shiftRight_eq_div_pow]
  omega

@[simp] theorem fieldY_xyn : fieldY (f ++ x ++ y ++ n) = y := by
  apply BitVec.eq_of_toNat_eq
  simp only [fieldY, BitVec.extractLsb'_toNat, toNat_xyn, Nat.shiftRight_eq_div_pow]
  omega

@[simp] theorem fieldN_xyn : fieldN (f ++ x ++ y ++ n) = n := by
  apply BitVec.eq_of_toNat_eq
  simp only [fieldN, BitVec.extractLsb'_toNat, toNat_xyn, Nat.shiftRight_eq_div_pow]
  omega

end

/-! ### Words of the format NNN -/

section
variable (f : Nibble) (nnn : Addr12)

theorem toNat_nnn : (f ++ nnn : Word).toNat = f.toNat * 4096 + nnn.toNat := by
  simp only [BitVec.toNat_append]
  rw [← Nat.shiftLeft_add_eq_or_of_lt nnn.isLt]
  simp only [Nat.shiftLeft_eq]

@[simp] theorem fieldF_nnn : fieldF (f ++ nnn) = f := by
  apply BitVec.eq_of_toNat_eq
  simp only [fieldF, BitVec.extractLsb'_toNat, toNat_nnn, Nat.shiftRight_eq_div_pow]
  omega

@[simp] theorem fieldNNN_nnn : fieldNNN (f ++ nnn) = nnn := by
  apply BitVec.eq_of_toNat_eq
  simp only [fieldNNN, BitVec.extractLsb'_toNat, toNat_nnn, Nat.shiftRight_eq_div_pow]
  omega

end

/-! ### A word from its own fields -/

theorem word_eq_xnn (w : Word) : fieldF w ++ fieldX w ++ fieldNN w = w := by
  apply BitVec.eq_of_toNat_eq
  rw [toNat_xnn]
  simp only [fieldF, fieldX, fieldNN, BitVec.extractLsb'_toNat, Nat.shiftRight_eq_div_pow]
  omega

theorem word_eq_xyn (w : Word) : fieldF w ++ fieldX w ++ fieldY w ++ fieldN w = w := by
  apply BitVec.eq_of_toNat_eq
  rw [toNat_xyn]
  simp only [fieldF, fieldX, fieldY, fieldN, BitVec.extractLsb'_toNat, Nat.shiftRight_eq_div_pow]
  omega

theorem word_eq_nnn (w : Word) : fieldF w ++ fieldNNN w = w := by
  apply BitVec.eq_of_toNat_eq
  rw [toNat_nnn]
  simp only [fieldF, fieldNNN, BitVec.extractLsb'_toNat, Nat.shiftRight_eq_div_pow]
  omega

/-! ### The word that a rejection carries (R75) -/

/-- The sixteen opcode families (R76). -/
theorem nibble_cases (f : Nibble) :
    f = 0x0 ∨ f = 0x1 ∨ f = 0x2 ∨ f = 0x3 ∨ f = 0x4 ∨ f = 0x5 ∨ f = 0x6 ∨ f = 0x7 ∨
    f = 0x8 ∨ f = 0x9 ∨ f = 0xA ∨ f = 0xB ∨ f = 0xC ∨ f = 0xD ∨ f = 0xE ∨ f = 0xF := by
  decide +revert

theorem decodeFamily8_unknown {w opcode : Word} (h : decodeFamily8 w = .unknownOpcode opcode) : opcode = w := by
  unfold decodeFamily8 at h
  split_ifs at h
  simp_all

theorem decodeFamilyE_unknown {w opcode : Word} (h : decodeFamilyE w = .unknownOpcode opcode) : opcode = w := by
  unfold decodeFamilyE at h
  split_ifs at h
  simp_all

theorem decodeFamilyF_unknown {w opcode : Word} (h : decodeFamilyF w = .unknownOpcode opcode) : opcode = w := by
  unfold decodeFamilyF at h
  split_ifs at h
  simp_all

/-- A rejected word is carried as it was read. -/
theorem decode_unknown {w opcode : Word} (h : decode w = .unknownOpcode opcode) : opcode = w := by
  rcases nibble_cases (fieldF w) with hF | hF | hF | hF | hF | hF | hF | hF | hF | hF | hF | hF | hF | hF | hF | hF <;>
    simp [decode, hF] at h
  · split_ifs at h
    exact (Decoded.unknownOpcode.inj h).symm
  · split_ifs at h
    exact (Decoded.unknownOpcode.inj h).symm
  · exact decodeFamily8_unknown h
  · split_ifs at h
    exact (Decoded.unknownOpcode.inj h).symm
  · exact decodeFamilyE_unknown h
  · exact decodeFamilyF_unknown h

/-! ### The bytes of a word -/

theorem wordOfBytes_toNat (hi lo : Byte) : (wordOfBytes hi lo).toNat = 256 * hi.toNat + lo.toNat := by
  simp only [wordOfBytes, BitVec.toNat_append]
  rw [← Nat.shiftLeft_add_eq_or_of_lt lo.isLt]
  simp only [Nat.shiftLeft_eq]
  omega

@[simp] theorem wordOfBytes_bytes (w : Word) : wordOfBytes (highByte w) (lowByte w) = w := by
  apply BitVec.eq_of_toNat_eq
  rw [wordOfBytes_toNat]
  simp only [highByte, lowByte, BitVec.extractLsb'_toNat, Nat.shiftRight_eq_div_pow]
  omega

/-- The bytes that the encoder writes are what the byte decoder reads back, with the bytes after them. -/
theorem decodeBytes_encodeBytes (i : Instr) (rest : List Byte) :
    decodeBytes (encodeBytes i ++ rest) = some (decode (encode i), rest) := by
  simp [encodeBytes, decodeBytes]

/-- The decoder on a table word is the decoder on the word. -/
theorem decodeTableWord_eq_some {nbits w : Nat} {i : Instr} :
    decodeTableWord nbits w = some i ↔ decode (tableWord nbits w) = .instr i := by
  simp only [decodeTableWord, decodeBytes, wordOfBytes_bytes]
  cases decode (tableWord nbits w) <;> simp

end Sys2Proof
end

