-- ==== Sys2Proof/Laws/State.lean ====
section
/-! SUPPORT. One lemma per field per update of the state, and one per reading per update, all true by rfl, so that no
proof unfolds a record update. -/

namespace Sys2Proof.Machine

variable (s : State)

/-! ### setReg -/

@[simp] theorem State.setReg_config (x : RegIdx) (v : Byte) : (s.setReg x v).config = s.config := rfl
@[simp] theorem State.setReg_mem (x : RegIdx) (v : Byte) : (s.setReg x v).mem = s.mem := rfl
@[simp] theorem State.setReg_V (x : RegIdx) (v : Byte) : (s.setReg x v).V = s.V.set x.toNat v := rfl
@[simp] theorem State.setReg_I (x : RegIdx) (v : Byte) : (s.setReg x v).I = s.I := rfl
@[simp] theorem State.setReg_pc (x : RegIdx) (v : Byte) : (s.setReg x v).pc = s.pc := rfl
@[simp] theorem State.setReg_stack (x : RegIdx) (v : Byte) : (s.setReg x v).stack = s.stack := rfl
@[simp] theorem State.setReg_DT (x : RegIdx) (v : Byte) : (s.setReg x v).DT = s.DT := rfl
@[simp] theorem State.setReg_ST (x : RegIdx) (v : Byte) : (s.setReg x v).ST = s.ST := rfl
@[simp] theorem State.setReg_fb (x : RegIdx) (v : Byte) : (s.setReg x v).fb = s.fb := rfl
@[simp] theorem State.setReg_keys (x : RegIdx) (v : Byte) : (s.setReg x v).keys = s.keys := rfl
@[simp] theorem State.setReg_run (x : RegIdx) (v : Byte) : (s.setReg x v).run = s.run := rfl
@[simp] theorem State.setReg_agenda (x : RegIdx) (v : Byte) : (s.setReg x v).agenda = s.agenda := rfl
@[simp] theorem State.setReg_draws (x : RegIdx) (v : Byte) : (s.setReg x v).draws = s.draws := rfl
@[simp] theorem State.setReg_memRead (x : RegIdx) (v : Byte) (k : Nat) : (s.setReg x v).memRead k = s.memRead k := rfl
@[simp] theorem State.setReg_pixel (x : RegIdx) (v : Byte) (px py : Nat) : (s.setReg x v).pixel px py = s.pixel px py := rfl
@[simp] theorem State.setReg_key (x : RegIdx) (v : Byte) (k : Nibble) : (s.setReg x v).key k = s.key k := rfl
@[simp] theorem State.setReg_effective (x : RegIdx) (v : Byte) (k : Nat) : (s.setReg x v).effective k = s.effective k := rfl

/-! ### memWrite -/

@[simp] theorem State.memWrite_config (a : Nat) (v : Byte) : (s.memWrite a v).config = s.config := rfl
@[simp] theorem State.memWrite_mem (a : Nat) (v : Byte) : (s.memWrite a v).mem = s.mem.write s.config (a % s.config.memSize) v := rfl
@[simp] theorem State.memWrite_V (a : Nat) (v : Byte) : (s.memWrite a v).V = s.V := rfl
@[simp] theorem State.memWrite_I (a : Nat) (v : Byte) : (s.memWrite a v).I = s.I := rfl
@[simp] theorem State.memWrite_pc (a : Nat) (v : Byte) : (s.memWrite a v).pc = s.pc := rfl
@[simp] theorem State.memWrite_stack (a : Nat) (v : Byte) : (s.memWrite a v).stack = s.stack := rfl
@[simp] theorem State.memWrite_DT (a : Nat) (v : Byte) : (s.memWrite a v).DT = s.DT := rfl
@[simp] theorem State.memWrite_ST (a : Nat) (v : Byte) : (s.memWrite a v).ST = s.ST := rfl
@[simp] theorem State.memWrite_fb (a : Nat) (v : Byte) : (s.memWrite a v).fb = s.fb := rfl
@[simp] theorem State.memWrite_keys (a : Nat) (v : Byte) : (s.memWrite a v).keys = s.keys := rfl
@[simp] theorem State.memWrite_run (a : Nat) (v : Byte) : (s.memWrite a v).run = s.run := rfl
@[simp] theorem State.memWrite_agenda (a : Nat) (v : Byte) : (s.memWrite a v).agenda = s.agenda := rfl
@[simp] theorem State.memWrite_draws (a : Nat) (v : Byte) : (s.memWrite a v).draws = s.draws := rfl
@[simp] theorem State.memWrite_reg (a : Nat) (v : Byte) (r : RegIdx) : (s.memWrite a v).reg r = s.reg r := rfl
@[simp] theorem State.memWrite_regAt (a : Nat) (v : Byte) (k : Nat) : (s.memWrite a v).regAt k = s.regAt k := rfl
@[simp] theorem State.memWrite_pixel (a : Nat) (v : Byte) (px py : Nat) : (s.memWrite a v).pixel px py = s.pixel px py := rfl
@[simp] theorem State.memWrite_key (a : Nat) (v : Byte) (k : Nibble) : (s.memWrite a v).key k = s.key k := rfl
@[simp] theorem State.memWrite_effective (a : Nat) (v : Byte) (k : Nat) : (s.memWrite a v).effective k = s.effective k := rfl

/-! ### setI -/

@[simp] theorem State.setI_config (a : Word) : (s.setI a).config = s.config := rfl
@[simp] theorem State.setI_mem (a : Word) : (s.setI a).mem = s.mem := rfl
@[simp] theorem State.setI_V (a : Word) : (s.setI a).V = s.V := rfl
@[simp] theorem State.setI_I (a : Word) : (s.setI a).I = a := rfl
@[simp] theorem State.setI_pc (a : Word) : (s.setI a).pc = s.pc := rfl
@[simp] theorem State.setI_stack (a : Word) : (s.setI a).stack = s.stack := rfl
@[simp] theorem State.setI_DT (a : Word) : (s.setI a).DT = s.DT := rfl
@[simp] theorem State.setI_ST (a : Word) : (s.setI a).ST = s.ST := rfl
@[simp] theorem State.setI_fb (a : Word) : (s.setI a).fb = s.fb := rfl
@[simp] theorem State.setI_keys (a : Word) : (s.setI a).keys = s.keys := rfl
@[simp] theorem State.setI_run (a : Word) : (s.setI a).run = s.run := rfl
@[simp] theorem State.setI_agenda (a : Word) : (s.setI a).agenda = s.agenda := rfl
@[simp] theorem State.setI_draws (a : Word) : (s.setI a).draws = s.draws := rfl
@[simp] theorem State.setI_reg (a : Word) (r : RegIdx) : (s.setI a).reg r = s.reg r := rfl
@[simp] theorem State.setI_regAt (a : Word) (k : Nat) : (s.setI a).regAt k = s.regAt k := rfl
@[simp] theorem State.setI_memRead (a : Word) (k : Nat) : (s.setI a).memRead k = s.memRead k := rfl
@[simp] theorem State.setI_pixel (a : Word) (px py : Nat) : (s.setI a).pixel px py = s.pixel px py := rfl
@[simp] theorem State.setI_key (a : Word) (k : Nibble) : (s.setI a).key k = s.key k := rfl

/-! ### setPc -/

@[simp] theorem State.setPc_config (a : Word) : (s.setPc a).config = s.config := rfl
@[simp] theorem State.setPc_mem (a : Word) : (s.setPc a).mem = s.mem := rfl
@[simp] theorem State.setPc_V (a : Word) : (s.setPc a).V = s.V := rfl
@[simp] theorem State.setPc_I (a : Word) : (s.setPc a).I = s.I := rfl
@[simp] theorem State.setPc_pc (a : Word) : (s.setPc a).pc = a := rfl
@[simp] theorem State.setPc_stack (a : Word) : (s.setPc a).stack = s.stack := rfl
@[simp] theorem State.setPc_DT (a : Word) : (s.setPc a).DT = s.DT := rfl
@[simp] theorem State.setPc_ST (a : Word) : (s.setPc a).ST = s.ST := rfl
@[simp] theorem State.setPc_fb (a : Word) : (s.setPc a).fb = s.fb := rfl
@[simp] theorem State.setPc_keys (a : Word) : (s.setPc a).keys = s.keys := rfl
@[simp] theorem State.setPc_run (a : Word) : (s.setPc a).run = s.run := rfl
@[simp] theorem State.setPc_agenda (a : Word) : (s.setPc a).agenda = s.agenda := rfl
@[simp] theorem State.setPc_draws (a : Word) : (s.setPc a).draws = s.draws := rfl
@[simp] theorem State.setPc_reg (a : Word) (r : RegIdx) : (s.setPc a).reg r = s.reg r := rfl
@[simp] theorem State.setPc_regAt (a : Word) (k : Nat) : (s.setPc a).regAt k = s.regAt k := rfl
@[simp] theorem State.setPc_memRead (a : Word) (k : Nat) : (s.setPc a).memRead k = s.memRead k := rfl
@[simp] theorem State.setPc_pixel (a : Word) (px py : Nat) : (s.setPc a).pixel px py = s.pixel px py := rfl
@[simp] theorem State.setPc_key (a : Word) (k : Nibble) : (s.setPc a).key k = s.key k := rfl
@[simp] theorem State.setPc_effective (a : Word) (k : Nat) : (s.setPc a).effective k = s.effective k := rfl

/-! ### setStack -/

@[simp] theorem State.setStack_config (l : List Word) : (s.setStack l).config = s.config := rfl
@[simp] theorem State.setStack_mem (l : List Word) : (s.setStack l).mem = s.mem := rfl
@[simp] theorem State.setStack_V (l : List Word) : (s.setStack l).V = s.V := rfl
@[simp] theorem State.setStack_I (l : List Word) : (s.setStack l).I = s.I := rfl
@[simp] theorem State.setStack_pc (l : List Word) : (s.setStack l).pc = s.pc := rfl
@[simp] theorem State.setStack_stack (l : List Word) : (s.setStack l).stack = l := rfl
@[simp] theorem State.setStack_DT (l : List Word) : (s.setStack l).DT = s.DT := rfl
@[simp] theorem State.setStack_ST (l : List Word) : (s.setStack l).ST = s.ST := rfl
@[simp] theorem State.setStack_fb (l : List Word) : (s.setStack l).fb = s.fb := rfl
@[simp] theorem State.setStack_keys (l : List Word) : (s.setStack l).keys = s.keys := rfl
@[simp] theorem State.setStack_run (l : List Word) : (s.setStack l).run = s.run := rfl
@[simp] theorem State.setStack_agenda (l : List Word) : (s.setStack l).agenda = s.agenda := rfl
@[simp] theorem State.setStack_draws (l : List Word) : (s.setStack l).draws = s.draws := rfl
@[simp] theorem State.setStack_reg (l : List Word) (r : RegIdx) : (s.setStack l).reg r = s.reg r := rfl
@[simp] theorem State.setStack_regAt (l : List Word) (k : Nat) : (s.setStack l).regAt k = s.regAt k := rfl
@[simp] theorem State.setStack_memRead (l : List Word) (k : Nat) : (s.setStack l).memRead k = s.memRead k := rfl
@[simp] theorem State.setStack_pixel (l : List Word) (px py : Nat) : (s.setStack l).pixel px py = s.pixel px py := rfl
@[simp] theorem State.setStack_key (l : List Word) (k : Nibble) : (s.setStack l).key k = s.key k := rfl
@[simp] theorem State.setStack_effective (l : List Word) (k : Nat) : (s.setStack l).effective k = s.effective k := rfl

/-! ### setDT -/

@[simp] theorem State.setDT_config (v : Byte) : (s.setDT v).config = s.config := rfl
@[simp] theorem State.setDT_mem (v : Byte) : (s.setDT v).mem = s.mem := rfl
@[simp] theorem State.setDT_V (v : Byte) : (s.setDT v).V = s.V := rfl
@[simp] theorem State.setDT_I (v : Byte) : (s.setDT v).I = s.I := rfl
@[simp] theorem State.setDT_pc (v : Byte) : (s.setDT v).pc = s.pc := rfl
@[simp] theorem State.setDT_stack (v : Byte) : (s.setDT v).stack = s.stack := rfl
@[simp] theorem State.setDT_DT (v : Byte) : (s.setDT v).DT = v := rfl
@[simp] theorem State.setDT_ST (v : Byte) : (s.setDT v).ST = s.ST := rfl
@[simp] theorem State.setDT_fb (v : Byte) : (s.setDT v).fb = s.fb := rfl
@[simp] theorem State.setDT_keys (v : Byte) : (s.setDT v).keys = s.keys := rfl
@[simp] theorem State.setDT_run (v : Byte) : (s.setDT v).run = s.run := rfl
@[simp] theorem State.setDT_agenda (v : Byte) : (s.setDT v).agenda = s.agenda := rfl
@[simp] theorem State.setDT_draws (v : Byte) : (s.setDT v).draws = s.draws := rfl
@[simp] theorem State.setDT_reg (v : Byte) (r : RegIdx) : (s.setDT v).reg r = s.reg r := rfl
@[simp] theorem State.setDT_regAt (v : Byte) (k : Nat) : (s.setDT v).regAt k = s.regAt k := rfl
@[simp] theorem State.setDT_memRead (v : Byte) (k : Nat) : (s.setDT v).memRead k = s.memRead k := rfl
@[simp] theorem State.setDT_pixel (v : Byte) (px py : Nat) : (s.setDT v).pixel px py = s.pixel px py := rfl
@[simp] theorem State.setDT_key (v : Byte) (k : Nibble) : (s.setDT v).key k = s.key k := rfl
@[simp] theorem State.setDT_effective (v : Byte) (k : Nat) : (s.setDT v).effective k = s.effective k := rfl

/-! ### setST -/

@[simp] theorem State.setST_config (v : Byte) : (s.setST v).config = s.config := rfl
@[simp] theorem State.setST_mem (v : Byte) : (s.setST v).mem = s.mem := rfl
@[simp] theorem State.setST_V (v : Byte) : (s.setST v).V = s.V := rfl
@[simp] theorem State.setST_I (v : Byte) : (s.setST v).I = s.I := rfl
@[simp] theorem State.setST_pc (v : Byte) : (s.setST v).pc = s.pc := rfl
@[simp] theorem State.setST_stack (v : Byte) : (s.setST v).stack = s.stack := rfl
@[simp] theorem State.setST_DT (v : Byte) : (s.setST v).DT = s.DT := rfl
@[simp] theorem State.setST_ST (v : Byte) : (s.setST v).ST = v := rfl
@[simp] theorem State.setST_fb (v : Byte) : (s.setST v).fb = s.fb := rfl
@[simp] theorem State.setST_keys (v : Byte) : (s.setST v).keys = s.keys := rfl
@[simp] theorem State.setST_run (v : Byte) : (s.setST v).run = s.run := rfl
@[simp] theorem State.setST_agenda (v : Byte) : (s.setST v).agenda = s.agenda := rfl
@[simp] theorem State.setST_draws (v : Byte) : (s.setST v).draws = s.draws := rfl
@[simp] theorem State.setST_reg (v : Byte) (r : RegIdx) : (s.setST v).reg r = s.reg r := rfl
@[simp] theorem State.setST_regAt (v : Byte) (k : Nat) : (s.setST v).regAt k = s.regAt k := rfl
@[simp] theorem State.setST_memRead (v : Byte) (k : Nat) : (s.setST v).memRead k = s.memRead k := rfl
@[simp] theorem State.setST_pixel (v : Byte) (px py : Nat) : (s.setST v).pixel px py = s.pixel px py := rfl
@[simp] theorem State.setST_key (v : Byte) (k : Nibble) : (s.setST v).key k = s.key k := rfl
@[simp] theorem State.setST_effective (v : Byte) (k : Nat) : (s.setST v).effective k = s.effective k := rfl

/-! ### setFb -/

@[simp] theorem State.setFb_config (p : Framebuffer) : (s.setFb p).config = s.config := rfl
@[simp] theorem State.setFb_mem (p : Framebuffer) : (s.setFb p).mem = s.mem := rfl
@[simp] theorem State.setFb_V (p : Framebuffer) : (s.setFb p).V = s.V := rfl
@[simp] theorem State.setFb_I (p : Framebuffer) : (s.setFb p).I = s.I := rfl
@[simp] theorem State.setFb_pc (p : Framebuffer) : (s.setFb p).pc = s.pc := rfl
@[simp] theorem State.setFb_stack (p : Framebuffer) : (s.setFb p).stack = s.stack := rfl
@[simp] theorem State.setFb_DT (p : Framebuffer) : (s.setFb p).DT = s.DT := rfl
@[simp] theorem State.setFb_ST (p : Framebuffer) : (s.setFb p).ST = s.ST := rfl
@[simp] theorem State.setFb_fb (p : Framebuffer) : (s.setFb p).fb = p := rfl
@[simp] theorem State.setFb_keys (p : Framebuffer) : (s.setFb p).keys = s.keys := rfl
@[simp] theorem State.setFb_run (p : Framebuffer) : (s.setFb p).run = s.run := rfl
@[simp] theorem State.setFb_agenda (p : Framebuffer) : (s.setFb p).agenda = s.agenda := rfl
@[simp] theorem State.setFb_draws (p : Framebuffer) : (s.setFb p).draws = s.draws := rfl
@[simp] theorem State.setFb_reg (p : Framebuffer) (r : RegIdx) : (s.setFb p).reg r = s.reg r := rfl
@[simp] theorem State.setFb_regAt (p : Framebuffer) (k : Nat) : (s.setFb p).regAt k = s.regAt k := rfl
@[simp] theorem State.setFb_memRead (p : Framebuffer) (k : Nat) : (s.setFb p).memRead k = s.memRead k := rfl
@[simp] theorem State.setFb_pixel (p : Framebuffer) (px py : Nat) : (s.setFb p).pixel px py = p.pixel px py := rfl
@[simp] theorem State.setFb_key (p : Framebuffer) (k : Nibble) : (s.setFb p).key k = s.key k := rfl
@[simp] theorem State.setFb_effective (p : Framebuffer) (k : Nat) : (s.setFb p).effective k = s.effective k := rfl

/-! ### setKeys -/

@[simp] theorem State.setKeys_config (ks : Vector Bool 16) : (s.setKeys ks).config = s.config := rfl
@[simp] theorem State.setKeys_mem (ks : Vector Bool 16) : (s.setKeys ks).mem = s.mem := rfl
@[simp] theorem State.setKeys_V (ks : Vector Bool 16) : (s.setKeys ks).V = s.V := rfl
@[simp] theorem State.setKeys_I (ks : Vector Bool 16) : (s.setKeys ks).I = s.I := rfl
@[simp] theorem State.setKeys_pc (ks : Vector Bool 16) : (s.setKeys ks).pc = s.pc := rfl
@[simp] theorem State.setKeys_stack (ks : Vector Bool 16) : (s.setKeys ks).stack = s.stack := rfl
@[simp] theorem State.setKeys_DT (ks : Vector Bool 16) : (s.setKeys ks).DT = s.DT := rfl
@[simp] theorem State.setKeys_ST (ks : Vector Bool 16) : (s.setKeys ks).ST = s.ST := rfl
@[simp] theorem State.setKeys_fb (ks : Vector Bool 16) : (s.setKeys ks).fb = s.fb := rfl
@[simp] theorem State.setKeys_keys (ks : Vector Bool 16) : (s.setKeys ks).keys = ks := rfl
@[simp] theorem State.setKeys_run (ks : Vector Bool 16) : (s.setKeys ks).run = s.run := rfl
@[simp] theorem State.setKeys_agenda (ks : Vector Bool 16) : (s.setKeys ks).agenda = s.agenda := rfl
@[simp] theorem State.setKeys_draws (ks : Vector Bool 16) : (s.setKeys ks).draws = s.draws := rfl
@[simp] theorem State.setKeys_reg (ks : Vector Bool 16) (r : RegIdx) : (s.setKeys ks).reg r = s.reg r := rfl
@[simp] theorem State.setKeys_regAt (ks : Vector Bool 16) (k : Nat) : (s.setKeys ks).regAt k = s.regAt k := rfl
@[simp] theorem State.setKeys_memRead (ks : Vector Bool 16) (k : Nat) : (s.setKeys ks).memRead k = s.memRead k := rfl
@[simp] theorem State.setKeys_pixel (ks : Vector Bool 16) (px py : Nat) : (s.setKeys ks).pixel px py = s.pixel px py := rfl
@[simp] theorem State.setKeys_effective (ks : Vector Bool 16) (k : Nat) : (s.setKeys ks).effective k = s.effective k := rfl

/-! ### setRun -/

@[simp] theorem State.setRun_config (rs : RunState) : (s.setRun rs).config = s.config := rfl
@[simp] theorem State.setRun_mem (rs : RunState) : (s.setRun rs).mem = s.mem := rfl
@[simp] theorem State.setRun_V (rs : RunState) : (s.setRun rs).V = s.V := rfl
@[simp] theorem State.setRun_I (rs : RunState) : (s.setRun rs).I = s.I := rfl
@[simp] theorem State.setRun_pc (rs : RunState) : (s.setRun rs).pc = s.pc := rfl
@[simp] theorem State.setRun_stack (rs : RunState) : (s.setRun rs).stack = s.stack := rfl
@[simp] theorem State.setRun_DT (rs : RunState) : (s.setRun rs).DT = s.DT := rfl
@[simp] theorem State.setRun_ST (rs : RunState) : (s.setRun rs).ST = s.ST := rfl
@[simp] theorem State.setRun_fb (rs : RunState) : (s.setRun rs).fb = s.fb := rfl
@[simp] theorem State.setRun_keys (rs : RunState) : (s.setRun rs).keys = s.keys := rfl
@[simp] theorem State.setRun_run (rs : RunState) : (s.setRun rs).run = rs := rfl
@[simp] theorem State.setRun_agenda (rs : RunState) : (s.setRun rs).agenda = s.agenda := rfl
@[simp] theorem State.setRun_draws (rs : RunState) : (s.setRun rs).draws = s.draws := rfl
@[simp] theorem State.setRun_reg (rs : RunState) (r : RegIdx) : (s.setRun rs).reg r = s.reg r := rfl
@[simp] theorem State.setRun_regAt (rs : RunState) (k : Nat) : (s.setRun rs).regAt k = s.regAt k := rfl
@[simp] theorem State.setRun_memRead (rs : RunState) (k : Nat) : (s.setRun rs).memRead k = s.memRead k := rfl
@[simp] theorem State.setRun_pixel (rs : RunState) (px py : Nat) : (s.setRun rs).pixel px py = s.pixel px py := rfl
@[simp] theorem State.setRun_key (rs : RunState) (k : Nibble) : (s.setRun rs).key k = s.key k := rfl
@[simp] theorem State.setRun_effective (rs : RunState) (k : Nat) : (s.setRun rs).effective k = s.effective k := rfl

/-! ### haltWith -/

@[simp] theorem State.haltWith_config (reason : HaltReason) : (s.haltWith reason).config = s.config := rfl
@[simp] theorem State.haltWith_mem (reason : HaltReason) : (s.haltWith reason).mem = s.mem := rfl
@[simp] theorem State.haltWith_V (reason : HaltReason) : (s.haltWith reason).V = s.V := rfl
@[simp] theorem State.haltWith_I (reason : HaltReason) : (s.haltWith reason).I = s.I := rfl
@[simp] theorem State.haltWith_pc (reason : HaltReason) : (s.haltWith reason).pc = s.pc := rfl
@[simp] theorem State.haltWith_stack (reason : HaltReason) : (s.haltWith reason).stack = s.stack := rfl
@[simp] theorem State.haltWith_DT (reason : HaltReason) : (s.haltWith reason).DT = s.DT := rfl
@[simp] theorem State.haltWith_ST (reason : HaltReason) : (s.haltWith reason).ST = s.ST := rfl
@[simp] theorem State.haltWith_fb (reason : HaltReason) : (s.haltWith reason).fb = s.fb := rfl
@[simp] theorem State.haltWith_keys (reason : HaltReason) : (s.haltWith reason).keys = s.keys := rfl
@[simp] theorem State.haltWith_run (reason : HaltReason) : (s.haltWith reason).run = .halted reason := rfl
@[simp] theorem State.haltWith_agenda (reason : HaltReason) : (s.haltWith reason).agenda = s.agenda := rfl
@[simp] theorem State.haltWith_draws (reason : HaltReason) : (s.haltWith reason).draws = s.draws := rfl
@[simp] theorem State.haltWith_reg (reason : HaltReason) (r : RegIdx) : (s.haltWith reason).reg r = s.reg r := rfl
@[simp] theorem State.haltWith_regAt (reason : HaltReason) (k : Nat) : (s.haltWith reason).regAt k = s.regAt k := rfl
@[simp] theorem State.haltWith_memRead (reason : HaltReason) (k : Nat) : (s.haltWith reason).memRead k = s.memRead k := rfl
@[simp] theorem State.haltWith_pixel (reason : HaltReason) (px py : Nat) : (s.haltWith reason).pixel px py = s.pixel px py := rfl
@[simp] theorem State.haltWith_key (reason : HaltReason) (k : Nibble) : (s.haltWith reason).key k = s.key k := rfl
@[simp] theorem State.haltWith_effective (reason : HaltReason) (k : Nat) : (s.haltWith reason).effective k = s.effective k := rfl

/-! ### setAgenda -/

@[simp] theorem State.setAgenda_config (l : List Move) : (s.setAgenda l).config = s.config := rfl
@[simp] theorem State.setAgenda_mem (l : List Move) : (s.setAgenda l).mem = s.mem := rfl
@[simp] theorem State.setAgenda_V (l : List Move) : (s.setAgenda l).V = s.V := rfl
@[simp] theorem State.setAgenda_I (l : List Move) : (s.setAgenda l).I = s.I := rfl
@[simp] theorem State.setAgenda_pc (l : List Move) : (s.setAgenda l).pc = s.pc := rfl
@[simp] theorem State.setAgenda_stack (l : List Move) : (s.setAgenda l).stack = s.stack := rfl
@[simp] theorem State.setAgenda_DT (l : List Move) : (s.setAgenda l).DT = s.DT := rfl
@[simp] theorem State.setAgenda_ST (l : List Move) : (s.setAgenda l).ST = s.ST := rfl
@[simp] theorem State.setAgenda_fb (l : List Move) : (s.setAgenda l).fb = s.fb := rfl
@[simp] theorem State.setAgenda_keys (l : List Move) : (s.setAgenda l).keys = s.keys := rfl
@[simp] theorem State.setAgenda_run (l : List Move) : (s.setAgenda l).run = s.run := rfl
@[simp] theorem State.setAgenda_agenda (l : List Move) : (s.setAgenda l).agenda = l := rfl
@[simp] theorem State.setAgenda_draws (l : List Move) : (s.setAgenda l).draws = s.draws := rfl
@[simp] theorem State.setAgenda_reg (l : List Move) (r : RegIdx) : (s.setAgenda l).reg r = s.reg r := rfl
@[simp] theorem State.setAgenda_regAt (l : List Move) (k : Nat) : (s.setAgenda l).regAt k = s.regAt k := rfl
@[simp] theorem State.setAgenda_memRead (l : List Move) (k : Nat) : (s.setAgenda l).memRead k = s.memRead k := rfl
@[simp] theorem State.setAgenda_pixel (l : List Move) (px py : Nat) : (s.setAgenda l).pixel px py = s.pixel px py := rfl
@[simp] theorem State.setAgenda_key (l : List Move) (k : Nibble) : (s.setAgenda l).key k = s.key k := rfl
@[simp] theorem State.setAgenda_effective (l : List Move) (k : Nat) : (s.setAgenda l).effective k = s.effective k := rfl

/-! ### countDraw -/

@[simp] theorem State.countDraw_config : (s.countDraw).config = s.config := rfl
@[simp] theorem State.countDraw_mem : (s.countDraw).mem = s.mem := rfl
@[simp] theorem State.countDraw_V : (s.countDraw).V = s.V := rfl
@[simp] theorem State.countDraw_I : (s.countDraw).I = s.I := rfl
@[simp] theorem State.countDraw_pc : (s.countDraw).pc = s.pc := rfl
@[simp] theorem State.countDraw_stack : (s.countDraw).stack = s.stack := rfl
@[simp] theorem State.countDraw_DT : (s.countDraw).DT = s.DT := rfl
@[simp] theorem State.countDraw_ST : (s.countDraw).ST = s.ST := rfl
@[simp] theorem State.countDraw_fb : (s.countDraw).fb = s.fb := rfl
@[simp] theorem State.countDraw_keys : (s.countDraw).keys = s.keys := rfl
@[simp] theorem State.countDraw_run : (s.countDraw).run = s.run := rfl
@[simp] theorem State.countDraw_agenda : (s.countDraw).agenda = s.agenda := rfl
@[simp] theorem State.countDraw_draws : (s.countDraw).draws = s.draws + 1 := rfl
@[simp] theorem State.countDraw_reg (r : RegIdx) : (s.countDraw).reg r = s.reg r := rfl
@[simp] theorem State.countDraw_regAt (k : Nat) : (s.countDraw).regAt k = s.regAt k := rfl
@[simp] theorem State.countDraw_memRead (k : Nat) : (s.countDraw).memRead k = s.memRead k := rfl
@[simp] theorem State.countDraw_pixel (px py : Nat) : (s.countDraw).pixel px py = s.pixel px py := rfl
@[simp] theorem State.countDraw_key (k : Nibble) : (s.countDraw).key k = s.key k := rfl
@[simp] theorem State.countDraw_effective (k : Nat) : (s.countDraw).effective k = s.effective k := rfl

/-! ### setRegThenFlag -/

@[simp] theorem State.setRegThenFlag_config (x : RegIdx) (v f : Byte) : (s.setRegThenFlag x v f).config = s.config := rfl
@[simp] theorem State.setRegThenFlag_mem (x : RegIdx) (v f : Byte) : (s.setRegThenFlag x v f).mem = s.mem := rfl
@[simp] theorem State.setRegThenFlag_I (x : RegIdx) (v f : Byte) : (s.setRegThenFlag x v f).I = s.I := rfl
@[simp] theorem State.setRegThenFlag_pc (x : RegIdx) (v f : Byte) : (s.setRegThenFlag x v f).pc = s.pc := rfl
@[simp] theorem State.setRegThenFlag_stack (x : RegIdx) (v f : Byte) : (s.setRegThenFlag x v f).stack = s.stack := rfl
@[simp] theorem State.setRegThenFlag_DT (x : RegIdx) (v f : Byte) : (s.setRegThenFlag x v f).DT = s.DT := rfl
@[simp] theorem State.setRegThenFlag_ST (x : RegIdx) (v f : Byte) : (s.setRegThenFlag x v f).ST = s.ST := rfl
@[simp] theorem State.setRegThenFlag_fb (x : RegIdx) (v f : Byte) : (s.setRegThenFlag x v f).fb = s.fb := rfl
@[simp] theorem State.setRegThenFlag_keys (x : RegIdx) (v f : Byte) : (s.setRegThenFlag x v f).keys = s.keys := rfl
@[simp] theorem State.setRegThenFlag_run (x : RegIdx) (v f : Byte) : (s.setRegThenFlag x v f).run = s.run := rfl
@[simp] theorem State.setRegThenFlag_agenda (x : RegIdx) (v f : Byte) : (s.setRegThenFlag x v f).agenda = s.agenda := rfl
@[simp] theorem State.setRegThenFlag_draws (x : RegIdx) (v f : Byte) : (s.setRegThenFlag x v f).draws = s.draws := rfl
@[simp] theorem State.setRegThenFlag_memRead (x : RegIdx) (v f : Byte) (k : Nat) : (s.setRegThenFlag x v f).memRead k = s.memRead k := rfl

/-! ### Registers: reading what was written -/

@[simp] theorem State.setReg_reg_self (x : RegIdx) (v : Byte) : (s.setReg x v).reg x = v := by
  simp [State.reg]

theorem State.setReg_reg_ne {x r : RegIdx} (v : Byte) (h : r ≠ x) : (s.setReg x v).reg r = s.reg r := by
  have hx : x.toNat ≠ r.toNat := fun e => h (BitVec.eq_of_toNat_eq e.symm)
  simp [State.reg, hx]

theorem State.setReg_reg (x r : RegIdx) (v : Byte) : (s.setReg x v).reg r = if r = x then v else s.reg r := by
  by_cases h : r = x
  · subst h; simp
  · simp [h, State.setReg_reg_ne]

/-- The result and then the flag (R133): the flag is what `VF` holds, whatever the destination. -/
theorem State.setRegThenFlag_reg (x r : RegIdx) (v f : Byte) :
    (s.setRegThenFlag x v f).reg r = if r = vf then f else if r = x then v else s.reg r := by
  simp [State.setRegThenFlag, State.setReg_reg]

@[simp] theorem State.setRegThenFlag_reg_vf (x : RegIdx) (v f : Byte) : (s.setRegThenFlag x v f).reg vf = f := by
  rw [State.setRegThenFlag_reg, if_pos rfl]

theorem State.setRegThenFlag_reg_self {x : RegIdx} (v f : Byte) (h : x ≠ vf) :
    (s.setRegThenFlag x v f).reg x = v := by
  rw [State.setRegThenFlag_reg, if_neg h, if_pos rfl]

end Sys2Proof.Machine
end

