-- ==== Sys2Proof/Laws/Memory.lean ====
section
/-! SUPPORT. The laws of memory: a read after a write, and the canonical form is kept. -/

namespace Sys2Proof.Machine

/-! ### Reading and writing the array -/

theorem Memory.read_filter_self (c : Config) (m : Memory) (a : Nat) :
    Memory.read c (m.filter (fun cell => cell.1 ≠ a)) a = Memory.creationByte c a := by
  induction m with
  | nil => rfl
  | cons cell m ih =>
    by_cases h : cell.1 = a
    · rw [List.filter_cons_of_neg (by simpa using h)]; exact ih
    · rw [List.filter_cons_of_pos (by simpa using h)]; simpa only [Memory.read, h, if_false] using ih

theorem Memory.read_filter_ne (c : Config) (m : Memory) {a b : Nat} (h : b ≠ a) :
    Memory.read c (m.filter (fun cell => cell.1 ≠ a)) b = Memory.read c m b := by
  induction m with
  | nil => rfl
  | cons cell m ih =>
    by_cases hc : cell.1 = a
    · rw [List.filter_cons_of_neg (by simpa using hc), ih]
      simp only [Memory.read, show ¬ cell.1 = b from fun e => h (e.symm.trans hc), if_false]
    · rw [List.filter_cons_of_pos (by simpa using hc)]
      simp only [Memory.read, ih]

theorem Memory.read_insert_ne (c : Config) (m : Memory) {a b : Nat} (v : Byte) (h : b ≠ a) :
    Memory.read c (Memory.insert a v m) b = Memory.read c m b := by
  induction m with
  | nil => simp only [Memory.insert, Memory.read, show ¬ a = b from fun e => h e.symm, if_false]
  | cons cell m ih =>
    by_cases hlt : a < cell.1
    · simp only [Memory.insert, hlt, if_true, Memory.read, show ¬ a = b from fun e => h e.symm, if_false]
    · simp only [Memory.insert, hlt, if_false, Memory.read, ih]

theorem Memory.read_insert_self (c : Config) (m : Memory) {a : Nat} (v : Byte) (h : ∀ cell ∈ m, cell.1 ≠ a) :
    Memory.read c (Memory.insert a v m) a = v := by
  induction m with
  | nil => simp [Memory.insert, Memory.read]
  | cons cell m ih =>
    by_cases hlt : a < cell.1
    · simp [Memory.insert, hlt, Memory.read]
    · simp only [Memory.insert, hlt, if_false, Memory.read, h cell (by simp)]
      exact ih fun x hx => h x (by simp [hx])

/-- A read after a write to the same address gives the value written. -/
@[simp] theorem Memory.read_write_self (c : Config) (m : Memory) (a : Nat) (v : Byte) :
    Memory.read c (Memory.write c m a v) a = v := by
  by_cases h : v = Memory.creationByte c a
  · simp only [Memory.write, h, if_true, Memory.read_filter_self]
  · simp only [Memory.write, h, if_false]
    exact Memory.read_insert_self c _ v (by simp)

/-- A write leaves every other address alone. -/
theorem Memory.read_write_ne (c : Config) (m : Memory) {a b : Nat} (v : Byte) (h : b ≠ a) :
    Memory.read c (Memory.write c m a v) b = Memory.read c m b := by
  by_cases hv : v = Memory.creationByte c a
  · simp only [Memory.write, hv, if_true, Memory.read_filter_ne c m h]
  · simp only [Memory.write, hv, if_false, Memory.read_insert_ne c _ v h, Memory.read_filter_ne c m h]

theorem Memory.read_write (c : Config) (m : Memory) (a b : Nat) (v : Byte) :
    Memory.read c (Memory.write c m a v) b = if b = a then v else Memory.read c m b := by
  by_cases h : b = a
  · subst h; simp
  · simp [h, Memory.read_write_ne]

/-! ### The canonical form -/

theorem Memory.mem_insert {a : Nat} {v : Byte} {m : Memory} {cell : Host.Cell} :
    cell ∈ Memory.insert a v m ↔ cell = (a, v) ∨ cell ∈ m := by
  induction m with
  | nil => simp [Memory.insert]
  | cons head m ih =>
    by_cases h : a < head.1
    · simp [Memory.insert, h]
    · simp only [Memory.insert, h, if_false, List.mem_cons, ih]
      tauto

theorem Memory.insert_rising {a : Nat} {v : Byte} {m : Memory} (hm : m.Pairwise (fun p q => p.1 < q.1))
    (ha : ∀ cell ∈ m, cell.1 ≠ a) : (Memory.insert a v m).Pairwise (fun p q => p.1 < q.1) := by
  induction m with
  | nil => simp [Memory.insert]
  | cons head m ih =>
    obtain ⟨hhead, htail⟩ := List.pairwise_cons.1 hm
    by_cases h : a < head.1
    · simp only [Memory.insert, h, if_true]
      refine List.pairwise_cons.2 ⟨?_, hm⟩
      rintro cell hcell
      rcases List.mem_cons.1 hcell with rfl | hcell
      · exact h
      · exact h.trans (hhead cell hcell)
    · simp only [Memory.insert, h, if_false]
      refine List.pairwise_cons.2 ⟨?_, ih htail fun cell hc => ha cell (by simp [hc])⟩
      intro cell hcell
      rcases Memory.mem_insert.1 hcell with rfl | hcell
      · have := ha head (by simp)
        simp only
        omega
      · exact hhead cell hcell

/-- A write inside memory keeps the canonical form. -/
theorem Memory.write_wf {c : Config} {m : Memory} {a : Nat} (v : Byte) (hm : Memory.wf c m) (ha : a < c.memSize) :
    Memory.wf c (Memory.write c m a v) := by
  obtain ⟨hrise, hcells⟩ := hm
  have hf : (m.filter (fun cell => cell.1 ≠ a)).Pairwise (fun p q => p.1 < q.1) := hrise.filter _
  have hfc : ∀ cell ∈ m.filter (fun cell => cell.1 ≠ a),
      cell.1 < c.memSize ∧ cell.2 ≠ Memory.creationByte c cell.1 :=
    fun cell h => hcells cell (List.mem_of_mem_filter h)
  by_cases hv : v = Memory.creationByte c a
  · simp only [Memory.write, hv, if_true]
    exact ⟨hf, hfc⟩
  · simp only [Memory.write, hv, if_false]
    refine ⟨Memory.insert_rising hf (by simp), ?_⟩
    intro cell hcell
    rcases Memory.mem_insert.1 hcell with rfl | hcell
    · exact ⟨ha, hv⟩
    · exact hfc cell hcell

/-- Loading an image that fits keeps the canonical form. -/
theorem Memory.load_wf {c : Config} {m : Memory} {a : Nat} {image : List Byte} (hm : Memory.wf c m)
    (h : a + image.length ≤ c.memSize) : Memory.wf c (Memory.load c m a image) := by
  induction image generalizing m a with
  | nil => exact hm
  | cons b bytes ih =>
    simp only [List.length_cons] at h
    exact ih (Memory.write_wf b hm (by omega)) (by omega)

/-- Placing a word inside memory keeps the canonical form. -/
theorem Memory.placeWord_wf {c : Config} {m : Memory} {a : Nat} (w : Word) (hm : Memory.wf c m)
    (h : a + 2 ≤ c.memSize) : Memory.wf c (Memory.placeWord c m a w) :=
  Memory.write_wf _ (Memory.write_wf _ hm (by omega)) (by omega)

/-! ### The accesses of the instructions (R51) -/

/-- `MemRead` after `MemWrite`, both addresses reduced. -/
theorem State.memWrite_memRead (s : State) (a b : Nat) (v : Byte) :
    (s.memWrite a v).memRead b = if b % s.config.memSize = a % s.config.memSize then v else s.memRead b := by
  simp only [State.memRead, State.memWrite_mem, State.memWrite_config, Memory.read_write]

/-- A store keeps the canonical form. -/
theorem State.memWrite_wf {s : State} (a : Nat) (v : Byte) (hs : Memory.wf s.config s.mem) (hM : 0 < s.config.memSize) :
    Memory.wf (s.memWrite a v).config (s.memWrite a v).mem :=
  Memory.write_wf v hs (Nat.mod_lt _ hM)

end Sys2Proof.Machine
end

