-- ==== Sys2Proof/Laws/Ops.lean ====
section
/-! SUPPORT. One lemma for each shared operation that says everything it can do: the end of a cycle, skips, the stack,
register blocks, drawing, events, the fetch and one step. -/

namespace Sys2Proof.Machine

variable (s : State)

/-! ### The end of a cycle (R106 to R110) -/

@[simp] theorem complete_advance (t : State) : complete s (t, .advance) = .next (t.setPc s.nextPc) := rfl
@[simp] theorem complete_done (t : State) : complete s (t, .done) = .next t := rfl
@[simp] theorem complete_wait (t : State) (r : RegIdx) :
    complete s (t, .wait r) = .next (t.setRun (.waitingForKey r)) := rfl
@[simp] theorem complete_halt (t : State) (reason : HaltReason) :
    complete s (t, .halt reason) = .next (s.haltWith reason) := rfl

/-- Every handler's cycle ends in a next state. -/
theorem complete_next (r : State × Signal) : ∃ t, complete s r = .next t := by
  obtain ⟨t, _ | _ | _ | _⟩ := r <;> exact ⟨_, rfl⟩

theorem nextPc_toNat : s.nextPc.toNat = (s.pc.toNat + 2) % 2 ^ 16 := by
  simp [State.nextPc, BitVec.toNat_add]

theorem skipPc_toNat : s.skipPc.toNat = (s.pc.toNat + 4) % 2 ^ 16 := by
  simp [State.skipPc, BitVec.toNat_add]

/-- A skip writes nothing but `pc`: past the next word when its condition holds, else to it (R171). -/
theorem complete_skipIf (b : Bool) :
    complete s (skipIf b s) = .next (s.setPc (if b then s.skipPc else s.nextPc)) := by
  cases b <;> rfl

/-! ### The stack (R27) -/

theorem push_full (v : Word) (h : s.stack.length = s.config.stackDepth) : s.push v = none := by
  simp [State.push, h]

theorem push_free (v : Word) (h : s.stack.length ≠ s.config.stackDepth) :
    s.push v = some (s.setStack (v :: s.stack)) := by
  simp [State.push, h]

theorem pop_empty (h : s.stack = []) : s.pop = none := by simp [State.pop, h]

theorem pop_cons {top : Word} {rest : List Word} (h : s.stack = top :: rest) :
    s.pop = some (top, s.setStack rest) := by simp [State.pop, h]

/-! ### Register blocks (R205, R206) -/

/-- A store of registers changes memory only. -/
theorem storeRegs_eq (n : Nat) : s.storeRegs n = { s with mem := (s.storeRegs n).mem } := by
  induction n with
  | zero => rfl
  | succ k ih =>
    rw [State.storeRegs, ih]
    rfl

@[simp] theorem storeRegs_config (n : Nat) : (s.storeRegs n).config = s.config := by rw [storeRegs_eq]
@[simp] theorem storeRegs_V (n : Nat) : (s.storeRegs n).V = s.V := by rw [storeRegs_eq]
@[simp] theorem storeRegs_I (n : Nat) : (s.storeRegs n).I = s.I := by rw [storeRegs_eq]
@[simp] theorem storeRegs_pc (n : Nat) : (s.storeRegs n).pc = s.pc := by rw [storeRegs_eq]
@[simp] theorem storeRegs_stack (n : Nat) : (s.storeRegs n).stack = s.stack := by rw [storeRegs_eq]
@[simp] theorem storeRegs_DT (n : Nat) : (s.storeRegs n).DT = s.DT := by rw [storeRegs_eq]
@[simp] theorem storeRegs_ST (n : Nat) : (s.storeRegs n).ST = s.ST := by rw [storeRegs_eq]
@[simp] theorem storeRegs_fb (n : Nat) : (s.storeRegs n).fb = s.fb := by rw [storeRegs_eq]
@[simp] theorem storeRegs_keys (n : Nat) : (s.storeRegs n).keys = s.keys := by rw [storeRegs_eq]
@[simp] theorem storeRegs_run (n : Nat) : (s.storeRegs n).run = s.run := by rw [storeRegs_eq]
@[simp] theorem storeRegs_agenda (n : Nat) : (s.storeRegs n).agenda = s.agenda := by rw [storeRegs_eq]
@[simp] theorem storeRegs_draws (n : Nat) : (s.storeRegs n).draws = s.draws := by rw [storeRegs_eq]
@[simp] theorem storeRegs_reg (n : Nat) (r : RegIdx) : (s.storeRegs n).reg r = s.reg r := by rw [storeRegs_eq]; rfl

/-- A byte outside the block is as before. -/
theorem storeRegs_memRead_ne (n a : Nat)
    (h : ∀ k < n, a % s.config.memSize ≠ s.effective k % s.config.memSize) :
    (s.storeRegs n).memRead a = s.memRead a := by
  induction n with
  | zero => rfl
  | succ k ih =>
    rw [State.storeRegs, State.memWrite_memRead, storeRegs_config, if_neg (h k (by omega))]
    exact ih fun j hj => h j (by omega)

/-- A byte of the block is its register, where the block does not wrap onto itself. -/
theorem storeRegs_memRead (n k : Nat) (hk : k < n) (hn : n ≤ s.config.memSize) :
    (s.storeRegs n).memRead (s.effective k) = s.regAt k := by
  induction n with
  | zero => omega
  | succ m ih =>
    rw [State.storeRegs, State.memWrite_memRead, storeRegs_config]
    by_cases hkm : k = m
    · subst hkm; simp
    · have hne : s.effective k % s.config.memSize ≠ s.effective m % s.config.memSize := by
        intro e
        have h1 : (s.I.toNat + m) % s.config.memSize = (s.I.toNat + k) % s.config.memSize := e.symm
        have h2 : (m - k) % s.config.memSize = 0 := by
          have := Nat.sub_mod_eq_zero_of_mod_eq h1
          rwa [show s.I.toNat + m - (s.I.toNat + k) = m - k by omega] at this
        rw [Nat.mod_eq_of_lt (by omega)] at h2
        omega
      rw [if_neg hne]
      exact ih (by omega) (by omega)

/-- A store of registers keeps the canonical form of memory. -/
theorem storeRegs_wf (n : Nat) (hs : Memory.wf s.config s.mem) (hM : 0 < s.config.memSize) :
    Memory.wf s.config (s.storeRegs n).mem := by
  induction n with
  | zero => exact hs
  | succ k ih =>
    rw [State.storeRegs, State.memWrite_mem, storeRegs_config]
    exact Memory.write_wf _ ih (Nat.mod_lt _ hM)

/-- A load of registers changes registers only. -/
theorem loadRegs_eq (n : Nat) : s.loadRegs n = { s with V := (s.loadRegs n).V } := by
  induction n with
  | zero => rfl
  | succ k ih =>
    rw [State.loadRegs, ih]
    rfl

@[simp] theorem loadRegs_config (n : Nat) : (s.loadRegs n).config = s.config := by rw [loadRegs_eq]
@[simp] theorem loadRegs_mem (n : Nat) : (s.loadRegs n).mem = s.mem := by rw [loadRegs_eq]
@[simp] theorem loadRegs_I (n : Nat) : (s.loadRegs n).I = s.I := by rw [loadRegs_eq]
@[simp] theorem loadRegs_pc (n : Nat) : (s.loadRegs n).pc = s.pc := by rw [loadRegs_eq]
@[simp] theorem loadRegs_stack (n : Nat) : (s.loadRegs n).stack = s.stack := by rw [loadRegs_eq]
@[simp] theorem loadRegs_DT (n : Nat) : (s.loadRegs n).DT = s.DT := by rw [loadRegs_eq]
@[simp] theorem loadRegs_ST (n : Nat) : (s.loadRegs n).ST = s.ST := by rw [loadRegs_eq]
@[simp] theorem loadRegs_fb (n : Nat) : (s.loadRegs n).fb = s.fb := by rw [loadRegs_eq]
@[simp] theorem loadRegs_keys (n : Nat) : (s.loadRegs n).keys = s.keys := by rw [loadRegs_eq]
@[simp] theorem loadRegs_run (n : Nat) : (s.loadRegs n).run = s.run := by rw [loadRegs_eq]
@[simp] theorem loadRegs_agenda (n : Nat) : (s.loadRegs n).agenda = s.agenda := by rw [loadRegs_eq]
@[simp] theorem loadRegs_draws (n : Nat) : (s.loadRegs n).draws = s.draws := by rw [loadRegs_eq]
@[simp] theorem loadRegs_memRead (n a : Nat) : (s.loadRegs n).memRead a = s.memRead a := by rw [loadRegs_eq]; rfl

/-- The registers after a load: the first `n` hold the bytes of the block, the others are as before. -/
theorem loadRegs_reg (n : Nat) (hn : n ≤ 16) (r : RegIdx) :
    (s.loadRegs n).reg r = if r.toNat < n then s.memRead (s.effective r.toNat) else s.reg r := by
  induction n with
  | zero => rfl
  | succ k ih =>
    rw [State.loadRegs, State.setReg_reg, ih (by omega)]
    have hk : (BitVec.ofNat 4 k).toNat = k := by
      simp only [BitVec.toNat_ofNat]; omega
    by_cases h : r = BitVec.ofNat 4 k
    · have hr : r.toNat = k := by rw [h, hk]
      simp [h, hk]
    · have hr : r.toNat ≠ k := fun e => h (BitVec.eq_of_toNat_eq (by rw [hk, e]))
      simp only [h, if_false]
      split <;> split <;> first | rfl | omega

/-- The optional increment of `I` changes `I` only. -/
theorem incrementI_eq (x : RegIdx) : s.incrementI x = { s with I := (s.incrementI x).I } := by
  unfold State.incrementI
  split <;> rfl

@[simp] theorem incrementI_config (x : RegIdx) : (s.incrementI x).config = s.config := by rw [incrementI_eq]
@[simp] theorem incrementI_mem (x : RegIdx) : (s.incrementI x).mem = s.mem := by rw [incrementI_eq]
@[simp] theorem incrementI_V (x : RegIdx) : (s.incrementI x).V = s.V := by rw [incrementI_eq]
@[simp] theorem incrementI_pc (x : RegIdx) : (s.incrementI x).pc = s.pc := by rw [incrementI_eq]
@[simp] theorem incrementI_stack (x : RegIdx) : (s.incrementI x).stack = s.stack := by rw [incrementI_eq]
@[simp] theorem incrementI_DT (x : RegIdx) : (s.incrementI x).DT = s.DT := by rw [incrementI_eq]
@[simp] theorem incrementI_ST (x : RegIdx) : (s.incrementI x).ST = s.ST := by rw [incrementI_eq]
@[simp] theorem incrementI_fb (x : RegIdx) : (s.incrementI x).fb = s.fb := by rw [incrementI_eq]
@[simp] theorem incrementI_keys (x : RegIdx) : (s.incrementI x).keys = s.keys := by rw [incrementI_eq]
@[simp] theorem incrementI_run (x : RegIdx) : (s.incrementI x).run = s.run := by rw [incrementI_eq]
@[simp] theorem incrementI_agenda (x : RegIdx) : (s.incrementI x).agenda = s.agenda := by rw [incrementI_eq]
@[simp] theorem incrementI_draws (x : RegIdx) : (s.incrementI x).draws = s.draws := by rw [incrementI_eq]
@[simp] theorem incrementI_reg (x r : RegIdx) : (s.incrementI x).reg r = s.reg r := by rw [incrementI_eq]; rfl
@[simp] theorem incrementI_memRead (x : RegIdx) (a : Nat) : (s.incrementI x).memRead a = s.memRead a := by rw [incrementI_eq]; rfl

theorem incrementI_I (x : RegIdx) :
    (s.incrementI x).I = if s.config.loadStoreInc then s.advancedI (x.toNat + 1) else s.I := by
  unfold State.incrementI
  split <;> rfl

/-- `I + k` reduced mod `MEM_SIZE` fits the address register in every valid configuration. -/
theorem advancedI_toNat (k : Nat) (h : s.config.Valid) :
    (s.advancedI k).toNat = (s.I.toNat + k) % s.config.memSize := by
  obtain ⟨h1, h2, h3, -⟩ := h
  have := Nat.mod_lt (s.I.toNat + k) (y := s.config.memSize) (by simp only [Config.ProgramInMemory] at h2; omega)
  simp only [State.advancedI, State.effective, BitVec.toNat_ofNat]
  simp only [Config.MemoryAddressable] at h3
  exact Nat.mod_eq_of_lt (by omega)

/-- `I` after a block of `x + 1` registers, for both values of `LOADSTORE_INC`. -/
theorem incrementI_I_toNat (x : RegIdx) (h : s.config.Valid) :
    (s.incrementI x).I.toNat =
      if s.config.loadStoreInc then (s.I.toNat + x.toNat + 1) % s.config.memSize else s.I.toNat := by
  rw [incrementI_I]
  split
  · rw [advancedI_toNat s _ h, Nat.add_assoc]
  · rfl

/-! ### The fetch (R54, R57) -/

theorem fetch_beyond (h : s.config.memSize < s.pc.toNat + 2) : s.fetch = none := by
  simp only [State.fetch]
  rw [if_neg (by omega)]

/-- The word fetched is the big-endian word of the two bytes at `pc`. -/
theorem fetch_eq_some {w : Word} (h : s.pc.toNat + 2 ≤ s.config.memSize)
    (hw : w.toNat = 256 * (s.memRead s.pc.toNat).toNat + (s.memRead (s.pc.toNat + 1)).toNat) : s.fetch = some w := by
  simp only [State.fetch, h, if_true]
  congr 1
  apply BitVec.eq_of_toNat_eq
  rw [wordOfBytes_toNat, hw]
  simp only [State.memRead]
  rw [Nat.mod_eq_of_lt (by omega : s.pc.toNat < s.config.memSize),
    Nat.mod_eq_of_lt (by omega : s.pc.toNat + 1 < s.config.memSize)]

/-! ### One step (R290) -/

/-- Everything a step can do: the core's turn, a tick, a snapshot or a key press, and never from `Halted`. -/
theorem step_cases {t : State} (h : step s = .next t) :
    (∀ reason, s.run ≠ .halted reason) ∧
    ((s.nextMove = .cycle ∧ coreTurn (s.setAgenda s.agenda.tail) = .next t) ∨
     (∃ rest, s.agenda = .tick :: rest ∧ t = (s.setAgenda rest).tick) ∨
     (∃ keys rest, s.agenda = .keySnapshot keys :: rest ∧ t = (s.setAgenda rest).snapshotKeys keys) ∨
     (∃ k rest, s.agenda = .keyPress k :: rest ∧ t = (s.setAgenda rest).pressKey k)) := by
  have hrun : ∀ reason, s.run ≠ .halted reason := by
    intro reason e
    simp [step, e] at h
  have hmove : takeMove s = .next t := by
    cases hr : s.run with
    | halted reason => exact absurd hr (hrun reason)
    | running => simpa [step, hr] using h
    | waitingForKey r => simpa [step, hr] using h
  refine ⟨hrun, ?_⟩
  cases ha : s.agenda with
  | nil =>
    refine .inl ⟨by simp [State.nextMove, ha], ?_⟩
    have : s.setAgenda [] = s := by cases s; simp_all [State.setAgenda]
    simpa [takeMove, ha, this] using hmove
  | cons move rest =>
    cases move with
    | cycle => exact .inl ⟨by simp [State.nextMove, ha], by simpa [takeMove, ha] using hmove⟩
    | tick => exact .inr (.inl ⟨rest, rfl, by simpa [takeMove, ha] using hmove.symm⟩)
    | keySnapshot keys => exact .inr (.inr (.inl ⟨keys, rest, rfl, by simpa [takeMove, ha] using hmove.symm⟩))
    | keyPress k => exact .inr (.inr (.inr ⟨k, rest, rfl, by simpa [takeMove, ha] using hmove.symm⟩))

/-- Everything the core's turn can do: a waiting core stands, a running core halts at the fetch or the decode or
executes one instruction. -/
theorem coreTurn_cases {t : State} (h : coreTurn s = .next t) :
    ((∃ r, s.run = .waitingForKey r) ∧ t = s) ∨
    (s.run = .running ∧
      ((s.fetch = none ∧ t = s.haltWith .fetchOutOfBounds) ∨
       (∃ w opcode, s.fetch = some w ∧ decode w = .unknownOpcode opcode ∧
          t = s.haltWith (.decodeFailure opcode s.pc)) ∨
       (∃ w i, s.fetch = some w ∧ decode w = .instr i ∧ exec i s = .next t))) := by
  cases hr : s.run with
  | halted reason => simp [coreTurn, hr] at h
  | waitingForKey r => exact .inl ⟨⟨r, rfl⟩, by simpa [coreTurn, hr] using h.symm⟩
  | running =>
    refine .inr ⟨rfl, ?_⟩
    have hc : cycle s = .next t := by simpa [coreTurn, hr] using h
    cases hf : s.fetch with
    | none => exact .inl ⟨rfl, by simpa [cycle, hf] using hc.symm⟩
    | some w =>
      cases hd : decode w with
      | unknownOpcode opcode =>
        exact .inr (.inl ⟨w, opcode, rfl, hd, by simpa [cycle, hf, hd] using hc.symm⟩)
      | instr i => exact .inr (.inr ⟨w, i, rfl, hd, by simpa [cycle, hf, hd] using hc⟩)

/-- A step whose move is the core's is the core's turn on the state whose agenda has lost the move. -/
theorem step_core (hr : ∀ reason, s.run ≠ .halted reason) (hm : s.nextMove = .cycle) :
    step s = coreTurn (s.setAgenda s.agenda.tail) := by
  have hmove : step s = takeMove s := by
    cases h : s.run with
    | halted reason => exact absurd h (hr reason)
    | running => simp [step, h]
    | waitingForKey r => simp [step, h]
  rw [hmove]
  cases ha : s.agenda with
  | nil =>
    have : s.setAgenda [] = s := by cases s; simp_all [State.setAgenda]
    simp [takeMove, ha, this]
  | cons move rest =>
    simp only [State.nextMove, ha, List.headD_cons] at hm
    subst hm
    simp [takeMove, ha]

/-! ### Runs -/

theorem run_zero : Host.Core.run core 0 s = .next s := rfl

/-- A run whose first step answers a next state is the run from that state. -/
theorem run_next {t : State} (k : Nat) (h : step s = .next t) :
    Host.Core.run core (k + 1) s = Host.Core.run core k t := by
  have general : ∀ (M : Host.Core) (a b : M.State), M.step a = .next b → M.run (k + 1) a = M.run k b :=
    fun M a b h => by simp [Host.Core.run, h]
  exact general core s t h

theorem run_fault {reason : Fault} (k : Nat) (h : step s = .fault reason) :
    Host.Core.run core (k + 1) s = .fault reason := by
  have general : ∀ (M : Host.Core) (a : M.State) (r : M.Fault), M.step a = .fault r → M.run (k + 1) a = .fault r :=
    fun M a r h => by simp [Host.Core.run, h]
  exact general core s reason h

theorem run_refused {reason : Refusal} (k : Nat) (h : step s = .refused reason) :
    Host.Core.run core (k + 1) s = .refused reason := by
  have general : ∀ (M : Host.Core) (a : M.State) (r : M.Refusal), M.step a = .refused r → M.run (k + 1) a = .refused r :=
    fun M a r h => by simp [Host.Core.run, h]
  exact general core s reason h

/-- A run of at least one step that answers a next state began with a step that does. -/
theorem run_succ_inv {t : State} {k : Nat} (h : Host.Core.run core (k + 1) s = .next t) :
    ∃ u, step s = .next u ∧ Host.Core.run core k u = .next t := by
  cases hs : step s with
  | next u => exact ⟨u, rfl, (run_next s k hs).symm.trans h⟩
  | fault reason => cases (run_fault s k hs).symm.trans h
  | refused reason => cases (run_refused s k hs).symm.trans h

/-! ### Flags and operands -/

theorem flagByte_eq (b : Bool) : flagByte b = if b = true then 1 else 0 := rfl

theorem carryFlag_eq (a b : Byte) : carryFlag a b = if a.toNat + b.toNat > 255 then 1 else 0 := by
  simp [carryFlag, flagByte]

theorem notBorrowFlag_eq (a b : Byte) : notBorrowFlag a b = if a.toNat ≥ b.toNat then 1 else 0 := by
  simp [notBorrowFlag, flagByte]

theorem shiftedOutRight_toNat (src : Byte) : (shiftedOutRight src).toNat = src.toNat % 2 := by decide +revert

theorem shiftedOutLeft_toNat (src : Byte) : (shiftedOutLeft src).toNat = src.toNat / 128 := by decide +revert

theorem absoluteAddress_toNat (nnn : Addr12) : (absoluteAddress nnn).toNat = nnn.toNat := by
  simp [absoluteAddress]
  omega

theorem lowNibble_toNat (v : Byte) : (lowNibble v).toNat = v.toNat % 16 := by simp [lowNibble]

/-! ### The timers (R276) -/

theorem timerDown_toNat (t : Byte) : (timerDown t).toNat = t.toNat - 1 := by
  unfold timerDown
  have := t.isLt
  split
  · simp [BitVec.toNat_sub]
    omega
  · simp
    omega

end Sys2Proof.Machine
end

