-- ==== Sys2Proof/Laws/Drawing.lean ====
section
/-! SUPPORT. The framebuffer: a pixel after a pixel is written, and everything a draw does (R232). -/

namespace Sys2Proof.Machine

/-! ### One pixel -/

theorem clear_shaped (c : Config) : FramebufferShaped c (Framebuffer.clear c) := by
  refine ⟨by simp [Framebuffer.clear], fun row hrow => ?_⟩
  rw [Framebuffer.clear, List.mem_replicate] at hrow
  simp [hrow.2]

@[simp] theorem clear_pixel (c : Config) (px py : Nat) : (Framebuffer.clear c).pixel px py = false := by
  simp only [Framebuffer.pixel, Framebuffer.clear, List.getD_eq_getElem?_getD, List.getElem?_replicate]
  split <;> simp [List.getElem?_replicate]
  split <;> rfl

theorem setPixel_shaped {c : Config} {fb : Framebuffer} (x y : Nat) (b : Bool) (h : FramebufferShaped c fb) :
    FramebufferShaped c (fb.setPixel x y b) := by
  refine ⟨by simpa [Framebuffer.setPixel] using h.1, fun row hrow => ?_⟩
  obtain ⟨j, hj, rfl⟩ := List.mem_iff_getElem.1 hrow
  simp only [Framebuffer.setPixel, List.length_modify] at hj
  simp only [Framebuffer.setPixel, List.getElem_modify]
  split
  · rw [List.length_set]; exact h.2 _ (List.getElem_mem hj)
  · exact h.2 _ (List.getElem_mem hj)

/-- A pixel written on the framebuffer reads as written, and every other one as before. -/
theorem setPixel_pixel {c : Config} {fb : Framebuffer} (h : FramebufferShaped c fb) {x y : Nat} (hx : x < c.fbW)
    (hy : y < c.fbH) (b : Bool) (px py : Nat) :
    (fb.setPixel x y b).pixel px py = if (px, py) = (x, y) then b else fb.pixel px py := by
  have hyl : y < fb.length := h.1 ▸ hy
  have hxl : x < fb[y].length := by rw [h.2 _ (List.getElem_mem hyl)]; exact hx
  simp only [Framebuffer.setPixel, Framebuffer.pixel, List.getD_eq_getElem?_getD, List.getElem?_modify, Prod.mk.injEq]
  by_cases hyy : y = py
  · subst hyy
    by_cases hxx : x = px
    · subst hxx
      simp [hyl, hxl]
    · have : ¬ px = x := fun e => hxx e.symm
      simp [hyl, hxx, this]
  · have : ¬ py = y := fun e => hyy e.symm
    simp [hyy, this]

/-- Two framebuffers of one shape with the same pixels are equal. -/
theorem fb_ext {c : Config} {f g : Framebuffer} (hf : FramebufferShaped c f) (hg : FramebufferShaped c g)
    (h : ∀ px < c.fbW, ∀ py < c.fbH, f.pixel px py = g.pixel px py) : f = g := by
  apply List.ext_getElem (hf.1.trans hg.1.symm)
  intro y hy hy'
  have hlf := hf.2 _ (List.getElem_mem hy)
  have hlg := hg.2 _ (List.getElem_mem hy')
  apply List.ext_getElem (hlf.trans hlg.symm)
  intro x hx hx'
  have := h x (hlf ▸ hx) y (hf.1 ▸ hy)
  simpa [Framebuffer.pixel, List.getD_eq_getElem?_getD, hy, hy', hx, hx'] using this

/-! ### A list of pixels -/

/-- Everything that toggling a list of pixels does: each pixel is toggled as often as it is listed, the shape is kept,
and the collision is noted when a toggle meets a lit pixel. -/
theorem foldl_togglePixel {c : Config} (ps : List (Nat × Nat)) (hps : ∀ p ∈ ps, p.1 < c.fbW ∧ p.2 < c.fbH)
    (fb : Framebuffer) (hit : Bool) (h : FramebufferShaped c fb) :
    FramebufferShaped c (ps.foldl togglePixel (fb, hit)).1 ∧
    (∀ px py, (ps.foldl togglePixel (fb, hit)).1.pixel px py =
      (fb.pixel px py ^^ decide (ps.count (px, py) % 2 = 1))) ∧
    ((ps.foldl togglePixel (fb, hit)).2 = true ↔
      hit = true ∨ ∃ px py, (fb.pixel px py = true ∧ 1 ≤ ps.count (px, py)) ∨ 2 ≤ ps.count (px, py)) := by
  induction ps generalizing fb hit with
  | nil => simp [h]
  | cons p ps ih =>
    obtain ⟨x, y⟩ := p
    obtain ⟨hx, hy⟩ := hps (x, y) (by simp)
    have hset : ∀ px py, (fb.setPixel x y (!fb.pixel x y)).pixel px py =
        if (px, py) = (x, y) then !fb.pixel x y else fb.pixel px py := setPixel_pixel h hx hy _
    obtain ⟨h1, h2, h3⟩ := ih (fun q hq => hps q (by simp [hq])) (fb.setPixel x y (!fb.pixel x y))
      (hit || fb.pixel x y) (setPixel_shaped x y _ h)
    simp only [List.foldl_cons]
    have hstep : togglePixel (fb, hit) (x, y) =
        (fb.setPixel x y (!fb.pixel x y), hit || fb.pixel x y) := rfl
    rw [hstep]
    refine ⟨h1, fun px py => ?_, ?_⟩
    · rw [h2, hset, List.count_cons]
      by_cases e : (px, py) = (x, y)
      · obtain ⟨rfl, rfl⟩ := Prod.mk.inj e
        simp only [if_true, beq_self_eq_true, if_true]
        cases fb.pixel px py <;> by_cases hc : ps.count (px, py) % 2 = 1 <;> simp [hc] <;> omega
      · have e' : ((x, y) == (px, py)) = false := by simpa using fun h1 h2 => e (by rw [h1, h2])
        simp [e, e']
    · rw [h3]
      constructor
      · rintro (hh | ⟨px, py, hh⟩)
        · rcases (Bool.or_eq_true _ _).mp hh with hh | hh
          · exact .inl hh
          · exact .inr ⟨x, y, .inl ⟨hh, by simp⟩⟩
        · rw [hset] at hh
          by_cases e : (px, py) = (x, y)
          · obtain ⟨rfl, rfl⟩ := Prod.mk.inj e
            refine .inr ⟨px, py, ?_⟩
            simp only [List.count_cons_self]
            rcases hh with ⟨-, hh⟩ | hh
            · exact .inr (by omega)
            · exact .inr (by omega)
          · have e' : ((x, y) == (px, py)) = false := by simpa using fun h1 h2 => e (by rw [h1, h2])
            refine .inr ⟨px, py, ?_⟩
            simpa [e, List.count_cons, e'] using hh
      · rintro (hh | ⟨px, py, hh⟩)
        · exact .inl (by simp [hh])
        · by_cases e : (px, py) = (x, y)
          · obtain ⟨rfl, rfl⟩ := Prod.mk.inj e
            cases hl : fb.pixel px py with
            | true => exact .inl (by simp)
            | false =>
              simp only [List.count_cons_self, hl] at hh
              refine .inr ⟨px, py, .inl ⟨by simpa [hl] using hset px py, ?_⟩⟩
              rcases hh with ⟨hh, -⟩ | hh
              · cases hh
              · omega
          · have e' : ((x, y) == (px, py)) = false := by simpa using fun h1 h2 => e (by rw [h1, h2])
            refine .inr ⟨px, py, ?_⟩
            rw [hset]
            simpa [e, List.count_cons, e'] using hh

/-! ### The sprite (R231, R232) -/

/-- The pixels a draw toggles lie on the framebuffer. -/
theorem spritePixels_inside (s : State) (x y : RegIdx) (n : Nibble) (hc : s.config.Valid) :
    ∀ p ∈ s.spritePixels x y n, p.1 < s.config.fbW ∧ p.2 < s.config.fbH := by
  obtain ⟨-, -, -, -, hW, hH⟩ := hc
  intro p hp
  simp only [State.spritePixels, State.rowPixels, List.mem_flatMap, List.mem_filterMap] at hp
  obtain ⟨r, -, c, -, hp⟩ := hp
  split at hp
  · obtain rfl := Option.some.inj hp
    exact ⟨Nat.mod_lt _ hW, Nat.mod_lt _ hH⟩
  · cases hp

/-- A pixel stands among the toggled ones as often as a set bit of the sprite falls on it. -/
theorem spritePixels_count (s : State) (x y : RegIdx) (n : Nibble) (px py : Nat) :
    (s.spritePixels x y n).count (px, py) = s.spriteHits x y n px py := by
  simp only [State.spritePixels, State.spriteHits, List.count_flatMap]
  congr 1
  apply List.map_congr_left
  intro r _
  simp only [Function.comp, State.rowPixels, List.count, List.countP_filterMap]
  apply List.countP_congr
  intro c _
  simp only [State.spriteRow, State.effective, State.spriteBit]
  by_cases hb : (s.memRead (s.I.toNat + r)).getLsbD (7 - c) = true <;> simp [hb]

/-- Everything `DRW` does to the framebuffer and the flag. -/
theorem drawPixels_sprite (s : State) (x y : RegIdx) (n : Nibble) (hc : s.config.Valid)
    (h : FramebufferShaped s.config s.fb) :
    FramebufferShaped s.config (drawPixels s.fb (s.spritePixels x y n)).1 ∧
    (∀ px py, (drawPixels s.fb (s.spritePixels x y n)).1.pixel px py =
      (s.pixel px py ^^ decide (s.spriteHits x y n px py % 2 = 1))) ∧
    ((drawPixels s.fb (s.spritePixels x y n)).2 = true ↔ ∃ px py,
      (s.pixel px py = true ∧ 1 ≤ s.spriteHits x y n px py) ∨ 2 ≤ s.spriteHits x y n px py) := by
  have := foldl_togglePixel _ (spritePixels_inside s x y n hc) s.fb false h
  simpa [drawPixels, State.pixel, spritePixels_count] using this

/-- A pixel that is hit lies on the framebuffer. -/
theorem spriteHits_inside (s : State) (x y : RegIdx) (n : Nibble) (hc : s.config.Valid) {px py : Nat}
    (h : 1 ≤ s.spriteHits x y n px py) : px < s.config.fbW ∧ py < s.config.fbH := by
  rw [← spritePixels_count] at h
  exact spritePixels_inside s x y n hc _ (List.count_pos_iff.1 h)

end Sys2Proof.Machine
end

