-- ==== Sys2Proof/Laws/Exec.lean ====
section
/-! SUPPORT. What every instruction has in common: its cycle ends in a next state, and it leaves the configuration and the
environment's moves alone. -/

namespace Sys2Proof.Machine

variable (s : State)

@[simp] theorem skipIf_config (b : Bool) : (skipIf b s).1.config = s.config := by cases b <;> rfl
@[simp] theorem skipIf_agenda (b : Bool) : (skipIf b s).1.agenda = s.agenda := by cases b <;> rfl

/-- Every instruction is a handler and the end of its cycle; the handler leaves the configuration and the environment's
moves alone. -/
theorem exec_handler (i : Instr) :
    ∃ r, exec i s = complete s r ∧ r.1.config = s.config ∧ r.1.agenda = s.agenda := by
  cases i <;>
    simp only [exec, execCls, execRet, execJp, execCall, execSeImm, execSneImm, execSeReg, execLdImm, execAddImm, execLdReg,
      execOrReg, execAndReg, execXorReg, execAddReg, execSub, execShr, execSubn, execShl, execSneReg, execLdI,
      execJpV0, execRnd, execDrw, execSkp, execSknp, execLdVxDt, execLdVxK, execLdDtVx, execLdStVx, execAddI,
      execLdF, execLdB, execLdMemVx, execLdVxMem]
  case ret => cases hs : s.stack <;> exact ⟨_, rfl, by simp [State.pop, hs], by simp [State.pop, hs]⟩
  case call nnn =>
    by_cases hs : s.stack.length = s.config.stackDepth <;>
      exact ⟨_, rfl, by simp [State.push, hs], by simp [State.push, hs]⟩
  case addImm x nn =>
    cases hf : s.config.addImmFlag <;> exact ⟨_, rfl, by simp, by simp⟩
  case seImm x nn => exact ⟨_, rfl, skipIf_config s _, skipIf_agenda s _⟩
  case sneImm x nn => exact ⟨_, rfl, skipIf_config s _, skipIf_agenda s _⟩
  case seReg x y => exact ⟨_, rfl, skipIf_config s _, skipIf_agenda s _⟩
  case sneReg x y => exact ⟨_, rfl, skipIf_config s _, skipIf_agenda s _⟩
  case skp x => exact ⟨_, rfl, skipIf_config s _, skipIf_agenda s _⟩
  case sknp x => exact ⟨_, rfl, skipIf_config s _, skipIf_agenda s _⟩
  all_goals exact ⟨_, rfl, by simp [rndHandler], by simp [rndHandler]⟩

/-- Every instruction's cycle ends in a next state: no arm refuses, none faults. -/
theorem exec_next (i : Instr) : ∃ t, exec i s = .next t := by
  obtain ⟨r, hr, -⟩ := exec_handler s i
  exact hr ▸ complete_next s r

/-- No instruction changes the configuration or the environment's moves. -/
theorem exec_config_agenda {i : Instr} {t : State} (h : exec i s = .next t) :
    t.config = s.config ∧ t.agenda = s.agenda := by
  obtain ⟨r, hr, hc, ha⟩ := exec_handler s i
  rw [hr] at h
  obtain ⟨u, _ | _ | _ | _⟩ := r <;> obtain rfl := Host.Outcome.next.inj h
  · exact ⟨hc, ha⟩
  · exact ⟨hc, ha⟩
  · exact ⟨hc, ha⟩
  · exact ⟨rfl, rfl⟩

theorem exec_config {i : Instr} {t : State} (h : exec i s = .next t) : t.config = s.config :=
  (exec_config_agenda s h).1

theorem exec_agenda {i : Instr} {t : State} (h : exec i s = .next t) : t.agenda = s.agenda :=
  (exec_config_agenda s h).2

end Sys2Proof.Machine
end

