-- ==== Sys2Proof/Laws/PerInstr.lean ====
section
/-! SUPPORT. What holds of every instruction as syntax, one lemma a constructor: its word lies in its own row of the opcode
map (spec/30_encoding.md R80), the row being selected by mask and pattern (R78). -/

namespace Sys2Proof.Laws.EncodesInRow

/-- The word of the instruction selects the instruction's row of the opcode map. -/
def Statement (i : Instr) : Prop := ∃ row, opcodeTable[i.rowIndex]? = some row ∧ row.Selects (encode i)

theorem nibble_and_F (f : Nibble) : f &&& 0xF#4 = f := by decide +revert

theorem nibble_and_0 (f : Nibble) : f &&& 0x0#4 = 0x0#4 := by decide +revert

/-! ### The masks of the formats -/

theorem mask_nnn (f : Nibble) (nnn : Addr12) : (f ++ nnn : Word) &&& 0xF000 = (f ++ 0x000#12 : Word) := by
  rw [show (0xF000 : Word) = (0xF#4 ++ 0x000#12 : Word) from rfl]
  simp only [BitVec.and_append, nibble_and_F]
  simp

theorem mask_xnn (f x : Nibble) (nn : Byte) : (f ++ x ++ nn : Word) &&& 0xF000 = (f ++ 0x0#4 ++ 0x00#8 : Word) := by
  rw [show (0xF000 : Word) = (0xF#4 ++ 0x0#4 ++ 0x00#8 : Word) from rfl]
  simp only [BitVec.and_append, nibble_and_F, nibble_and_0]
  simp

theorem mask_xyn (f x y n : Nibble) :
    (f ++ x ++ y ++ n : Word) &&& 0xF000 = (f ++ 0x0#4 ++ 0x0#4 ++ 0x0#4 : Word) := by
  rw [show (0xF000 : Word) = (0xF#4 ++ 0x0#4 ++ 0x0#4 ++ 0x0#4 : Word) from rfl]
  simp only [BitVec.and_append, nibble_and_F, nibble_and_0]

theorem mask_xy (f x y g : Nibble) :
    (f ++ x ++ y ++ g : Word) &&& 0xF00F = (f ++ 0x0#4 ++ 0x0#4 ++ g : Word) := by
  rw [show (0xF00F : Word) = (0xF#4 ++ 0x0#4 ++ 0x0#4 ++ 0xF#4 : Word) from rfl]
  simp only [BitVec.and_append, nibble_and_F, nibble_and_0]

theorem mask_x (f x : Nibble) (gg : Byte) :
    (f ++ x ++ gg : Word) &&& 0xF0FF = (f ++ 0x0#4 ++ gg : Word) := by
  rw [show (0xF0FF : Word) = (0xF#4 ++ 0x0#4 ++ 0xFF#8 : Word) from rfl]
  simp only [BitVec.and_append, nibble_and_F, nibble_and_0,
    show gg &&& 0xFF#8 = gg from by simpa using BitVec.and_allOnes (x := gg)]

/-! ### One lemma a constructor, in the order of the opcode map -/

theorem cls : Statement .cls := ⟨_, rfl, rfl⟩
theorem ret : Statement .ret := ⟨_, rfl, rfl⟩
theorem jp (nnn : Addr12) : Statement (.jp nnn) := ⟨_, rfl, mask_nnn _ _⟩
theorem call (nnn : Addr12) : Statement (.call nnn) := ⟨_, rfl, mask_nnn _ _⟩
theorem seImm (x : RegIdx) (nn : Byte) : Statement (.seImm x nn) := ⟨_, rfl, mask_xnn _ _ _⟩
theorem sneImm (x : RegIdx) (nn : Byte) : Statement (.sneImm x nn) := ⟨_, rfl, mask_xnn _ _ _⟩
theorem seReg (x y : RegIdx) : Statement (.seReg x y) := ⟨_, rfl, mask_xy _ _ _ _⟩
theorem ldImm (x : RegIdx) (nn : Byte) : Statement (.ldImm x nn) := ⟨_, rfl, mask_xnn _ _ _⟩
theorem addImm (x : RegIdx) (nn : Byte) : Statement (.addImm x nn) := ⟨_, rfl, mask_xnn _ _ _⟩
theorem ldReg (x y : RegIdx) : Statement (.ldReg x y) := ⟨_, rfl, mask_xy _ _ _ _⟩
theorem orReg (x y : RegIdx) : Statement (.orReg x y) := ⟨_, rfl, mask_xy _ _ _ _⟩
theorem andReg (x y : RegIdx) : Statement (.andReg x y) := ⟨_, rfl, mask_xy _ _ _ _⟩
theorem xorReg (x y : RegIdx) : Statement (.xorReg x y) := ⟨_, rfl, mask_xy _ _ _ _⟩
theorem addReg (x y : RegIdx) : Statement (.addReg x y) := ⟨_, rfl, mask_xy _ _ _ _⟩
theorem sub (x y : RegIdx) : Statement (.sub x y) := ⟨_, rfl, mask_xy _ _ _ _⟩
theorem shr (x y : RegIdx) : Statement (.shr x y) := ⟨_, rfl, mask_xy _ _ _ _⟩
theorem subn (x y : RegIdx) : Statement (.subn x y) := ⟨_, rfl, mask_xy _ _ _ _⟩
theorem shl (x y : RegIdx) : Statement (.shl x y) := ⟨_, rfl, mask_xy _ _ _ _⟩
theorem sneReg (x y : RegIdx) : Statement (.sneReg x y) := ⟨_, rfl, mask_xy _ _ _ _⟩
theorem ldI (nnn : Addr12) : Statement (.ldI nnn) := ⟨_, rfl, mask_nnn _ _⟩
theorem jpV0 (nnn : Addr12) : Statement (.jpV0 nnn) := ⟨_, rfl, mask_nnn _ _⟩
theorem rnd (x : RegIdx) (nn : Byte) : Statement (.rnd x nn) := ⟨_, rfl, mask_xnn _ _ _⟩
theorem drw (x y : RegIdx) (n : Nibble) : Statement (.drw x y n) := ⟨_, rfl, mask_xyn _ _ _ _⟩
theorem skp (x : RegIdx) : Statement (.skp x) := ⟨_, rfl, mask_x _ _ _⟩
theorem sknp (x : RegIdx) : Statement (.sknp x) := ⟨_, rfl, mask_x _ _ _⟩
theorem ldVxDt (x : RegIdx) : Statement (.ldVxDt x) := ⟨_, rfl, mask_x _ _ _⟩
theorem ldVxK (x : RegIdx) : Statement (.ldVxK x) := ⟨_, rfl, mask_x _ _ _⟩
theorem ldDtVx (x : RegIdx) : Statement (.ldDtVx x) := ⟨_, rfl, mask_x _ _ _⟩
theorem ldStVx (x : RegIdx) : Statement (.ldStVx x) := ⟨_, rfl, mask_x _ _ _⟩
theorem addI (x : RegIdx) : Statement (.addI x) := ⟨_, rfl, mask_x _ _ _⟩
theorem ldF (x : RegIdx) : Statement (.ldF x) := ⟨_, rfl, mask_x _ _ _⟩
theorem ldB (x : RegIdx) : Statement (.ldB x) := ⟨_, rfl, mask_x _ _ _⟩
theorem ldMemVx (x : RegIdx) : Statement (.ldMemVx x) := ⟨_, rfl, mask_x _ _ _⟩
theorem ldVxMem (x : RegIdx) : Statement (.ldVxMem x) := ⟨_, rfl, mask_x _ _ _⟩

end Sys2Proof.Laws.EncodesInRow
end

