-- ==== Sys2Proof/Tests/Slice0.lean ====
section
/-! SUPPORT. The model's own tests. Expected values are those of spec/95_test_vectors.md (the section is named at each
group) or of the rule named; the last part holds, for every statement with hypotheses, a state that meets them. -/

namespace Sys2Proof.Tests

open Sys2Proof.Machine

/-! ### What is constructed ill formed is refused (R6, R301) -/

theorem test_decided_config_valid : Config.atReset.Valid := by decide

/-- The smallest machine R6 allows: the glyph table right below the program, two bytes of program, one stack entry, one
pixel. -/
def smallest : Config :=
  { Config.atReset with memSize := 82, loadOffset := 80, fontBase := 0, stackDepth := 1, fbW := 1, fbH := 1 }

theorem test_smallest_config_valid : smallest.Valid := by decide
theorem test_largest_memory_valid : ({ Config.atReset with memSize := 65536 } : Config).Valid := by decide

theorem test_font_over_program_refused : ¬ ({ smallest with fontBase := 1 } : Config).FontBelowProgram := by decide
theorem test_no_room_for_a_word_refused : ¬ ({ smallest with memSize := 81 } : Config).ProgramInMemory := by decide
theorem test_memory_too_large_refused : ¬ ({ smallest with memSize := 65537 } : Config).MemoryAddressable := by decide
theorem test_no_stack_refused : ¬ ({ smallest with stackDepth := 0 } : Config).StackNotEmpty := by decide
theorem test_no_columns_refused : ¬ ({ smallest with fbW := 0 } : Config).ScreenNotEmpty := by decide
theorem test_no_rows_refused : ¬ ({ smallest with fbH := 0 } : Config).ScreenNotEmpty := by decide
theorem test_image_too_large_refused : ¬ smallest.ImageFits [0x12, 0x00, 0x00] := by decide

theorem test_create_refuses_config : create { smallest with stackDepth := 0 } [] = .refused .invalidConfiguration := rfl
theorem test_create_refuses_image : create smallest [0x12, 0x00, 0x00] = .refused .imageTooLarge := rfl

/-! ### Decoding: words written out from R74 and R80, and those of L2.1 -/

theorem test_decode_family_0 : decode 0b0000000011100000#16 = .instr .cls ∧
    decode 0b0000000011101110#16 = .instr .ret := by decide
theorem test_decode_jp : decode 0b0001101010111100#16 = .instr (.jp 0xABC) := by decide
theorem test_decode_call : decode 0b0010001100000001#16 = .instr (.call 0x301) := by decide
theorem test_decode_se_imm : decode 0b0011001101000010#16 = .instr (.seImm 3 0x42) := by decide
theorem test_decode_sne_imm : decode 0b0100001101000010#16 = .instr (.sneImm 3 0x42) := by decide
theorem test_decode_se_reg : decode 0b0101000100100000#16 = .instr (.seReg 1 2) := by decide
theorem test_decode_ld_imm : decode 0b0110111100010010#16 = .instr (.ldImm 0xF 0x12) := by decide
theorem test_decode_add_imm : decode 0b0111000000000001#16 = .instr (.addImm 0 1) := by decide
theorem test_decode_family_8 :
    [0x8AB0, 0x8AB1, 0x8AB2, 0x8AB3, 0x8AB4, 0x8AB5, 0x8AB6, 0x8AB7, 0x8ABE].map decode =
      [.instr (.ldReg 0xA 0xB), .instr (.orReg 0xA 0xB), .instr (.andReg 0xA 0xB), .instr (.xorReg 0xA 0xB),
       .instr (.addReg 0xA 0xB), .instr (.sub 0xA 0xB), .instr (.shr 0xA 0xB), .instr (.subn 0xA 0xB),
       .instr (.shl 0xA 0xB)] := by decide
theorem test_decode_family_8_bits : decode 0b1000101010111110#16 = .instr (.shl 0xA 0xB) := by decide
theorem test_decode_sne_reg : decode 0b1001101010110000#16 = .instr (.sneReg 0xA 0xB) := by decide
theorem test_decode_ld_i : decode 0b1010000100100011#16 = .instr (.ldI 0x123) := by decide
theorem test_decode_jp_v0 : decode 0b1011001100000000#16 = .instr (.jpV0 0x300) := by decide
theorem test_decode_rnd : decode 0b1100001100001111#16 = .instr (.rnd 3 0x0F) := by decide
theorem test_decode_drw : decode 0b1101000100100000#16 = .instr (.drw 1 2 0) := by decide
theorem test_decode_family_E : decode 0b1110000010011110#16 = .instr (.skp 0) ∧
    decode 0b1110000010100001#16 = .instr (.sknp 0) := by decide
theorem test_decode_family_F :
    [0xF307, 0xF30A, 0xF315, 0xF318, 0xF31E, 0xF329, 0xF333, 0xF355, 0xF365].map decode =
      [.instr (.ldVxDt 3), .instr (.ldVxK 3), .instr (.ldDtVx 3), .instr (.ldStVx 3), .instr (.addI 3),
       .instr (.ldF 3), .instr (.ldB 3), .instr (.ldMemVx 3), .instr (.ldVxMem 3)] := by decide
theorem test_decode_family_F_bits : decode 0b1111000101100101#16 = .instr (.ldVxMem 1) := by decide

/-- The unassigned words of L2.1: the rejection carries the word. -/
theorem test_decode_rejects_0_to_8 :
    [0x0000, 0x00E1, 0x00FF, 0x0123, 0x5121, 0x8AB8, 0x8ABF].map decode =
      [0x0000, 0x00E1, 0x00FF, 0x0123, 0x5121, 0x8AB8, 0x8ABF].map .unknownOpcode := by decide
theorem test_decode_rejects_9_to_F :
    [0x9AB1, 0xE19F, 0xF130, 0xF175, 0xFFFF].map decode =
      [0x9AB1, 0xE19F, 0xF130, 0xF175, 0xFFFF].map .unknownOpcode := by decide

theorem test_encode_fields : encode (.drw 1 2 3) = 0xD123 ∧ encode (.shr 0xA 0xB) = 0x8AB6 ∧
    encode (.ldImm 0xF 0x12) = 0x6F12 ∧ encode (.jpV0 0xABC) = 0xBABC ∧ encode (.ldMemVx 7) = 0xF755 := by decide

/-- The high byte of a word comes first (R54), and what follows the word is left over. -/
theorem test_bytes_are_big_endian : encodeBytes (.ldImm 0 5) = [0x60, 0x05] ∧
    decodeBytes [0x60, 0x05, 0xAA] = some (.instr (.ldImm 0 5), [0xAA]) ∧ decodeBytes [0x60] = none := by decide

theorem test_table_word : decodeTableWord 16 0x8014 = some (.addReg 0 1) ∧ decodeTableWord 16 0x8AB8 = none := by decide

/-! ### One step of one placed word -/

/-- The state one step after the word is placed where the next step fetches. -/
def after (s : State) (w : Nat) : Option State :=
  match step (s.withFetchWord 16 w) with
  | .next t => some t
  | .fault _ => none
  | .refused _ => none

/-- The reset state with given behavioural switches (R5). -/
def switched (shiftQuirk : ShiftQuirk) (loadStoreInc : Bool) (addImmFlag : AddImmFlag) : State :=
  State.created { Config.decided shiftQuirk loadStoreInc with addImmFlag := addImmFlag }

/-- The reset state with two registers written. -/
def pair (x : RegIdx) (a : Byte) (y : RegIdx) (b : Byte) : State := (State.reset.setReg x a).setReg y b

/-- The reset state with one key down. -/
def keyDown (k : Nat) : State := State.reset.setKeys (Vector.ofFn fun j => decide (j.val = k))

/-- The bytes read from `n` addresses on from `a`. -/
def bytes (t : State) (a n : Nat) : List Byte := (List.range n).map fun k => t.memRead (a + k)

/-- The columns lit among the first `n` of a row. -/
def lit (t : State) (y n : Nat) : List Nat := (List.range n).filter fun x => t.pixel x y

/-! Arithmetic and logic (L1.2, L1.3, L2.3). -/

theorem test_ldImm : (after (State.reset.setReg vf 0xAA) 0x6F12).map (fun t => (t.reg vf, t.pc)) = some (0x12, 0x202) := by
  decide
theorem test_addImm_unchanged : (after (pair 0 0xFF vf 0xAA) 0x7001).map (fun t => (t.reg 0, t.reg vf)) =
    some (0x00, 0xAA) := by decide
theorem test_addImm_carry :
    (after ((switched .inPlace false .carry).setReg vf 0xAA) 0x7F01).map (fun t => t.reg vf) = some 0 ∧
    (after ((switched .inPlace false .carry).setReg 0 0xFF) 0x7001).map (fun t => (t.reg 0, t.reg vf)) =
      some (0x00, 1) := by decide
theorem test_ldReg : (after (pair 1 0x5A vf 0xAA) 0x8010).map (fun t => (t.reg 0, t.reg 1, t.reg vf)) =
    some (0x5A, 0x5A, 0xAA) := by decide
theorem test_orReg : (after ((pair 0 0x0F 1 0xF0).setReg vf 0xAA) 0x8011).map (fun t => (t.reg 0, t.reg vf)) =
    some (0xFF, 0xAA) := by decide
theorem test_andReg : (after (pair 0 0x3C 1 0x0F) 0x8012).map (fun t => t.reg 0) = some 0x0C := by decide
theorem test_xorReg : (after (pair 0 0xFF 1 0x0F) 0x8013).map (fun t => t.reg 0) = some 0xF0 := by decide
theorem test_addReg : (after (pair 0 0xFA 1 0x0A) 0x8014).map (fun t => (t.reg 0, t.reg vf, t.pc)) =
    some (0x04, 1, 0x202) := by decide
theorem test_addReg_into_flag : (after (pair vf 0x10 0 0x20) 0x8F04).map (fun t => t.reg vf) = some 0 := by decide
theorem test_sub : (after (pair 0 0x01 1 0x02) 0x8015).map (fun t => (t.reg 0, t.reg vf)) = some (0xFF, 0) := by decide
theorem test_sub_equal : (after (pair 0 0x05 1 0x05) 0x8015).map (fun t => (t.reg 0, t.reg vf)) = some (0x00, 1) := by
  decide
theorem test_subn : (after (pair 0 0x0A 1 0x02) 0x8017).map (fun t => (t.reg 0, t.reg vf)) = some (0xF8, 0) := by decide
theorem test_subn_equal : (after (pair 0 0x33 1 0x33) 0x8017).map (fun t => (t.reg 0, t.reg vf)) = some (0x00, 1) := by
  decide
theorem test_shr_inPlace : (after ((switched .inPlace false .unchanged).setReg 0 0x05 |>.setReg 1 0x80) 0x8016).map
    (fun t => (t.reg 0, t.reg 1, t.reg vf)) = some (0x02, 0x80, 1) := by decide
theorem test_shr_legacy : (after ((switched .legacy false .unchanged).setReg 0 0x05 |>.setReg 1 0x80) 0x8016).map
    (fun t => (t.reg 0, t.reg 1, t.reg vf)) = some (0x40, 0x80, 0) := by decide
theorem test_shl_inPlace : (after ((switched .inPlace false .unchanged).setReg 0 0x81 |>.setReg 1 0x01) 0x801E).map
    (fun t => (t.reg 0, t.reg vf)) = some (0x02, 1) := by decide
theorem test_shl_legacy : (after ((switched .legacy false .unchanged).setReg 0 0x81 |>.setReg 1 0x01) 0x801E).map
    (fun t => (t.reg 0, t.reg 1, t.reg vf)) = some (0x02, 0x01, 0) := by decide

/-! Control transfer (L1.4, L2.4). -/

theorem test_jp : (after State.reset 0x1ABC).map (fun t => t.pc) = some 0xABC := by decide
theorem test_call : (after State.reset 0x2300).map (fun t => (t.pc, t.stack)) = some (0x300, [0x202]) := by decide
theorem test_call_full : (after (State.reset.setStack (List.replicate 16 0x202)) 0x2300).map
    (fun t => (t.run, t.pc, t.stack.length)) = some (.halted .stackOverflow, 0x200, 16) := by decide
theorem test_ret : (after ((State.reset.setPc 0x300).setStack [0x402, 0x202]) 0x00EE).map (fun t => (t.pc, t.stack)) =
    some (0x402, [0x202]) := by decide
theorem test_ret_empty : (after State.reset 0x00EE).map (fun t => (t.run, t.pc)) =
    some (.halted .stackUnderflow, 0x200) := by decide
theorem test_jpV0 : (after (State.reset.setReg 0 0xFF) 0xBFFF).map (fun t => t.pc) = some 0x10FE := by decide
theorem test_seImm : (after (State.reset.setReg 3 0x42) 0x3342).map (fun t => t.pc) = some 0x204 ∧
    (after (State.reset.setReg 3 0x41) 0x3342).map (fun t => t.pc) = some 0x202 := by decide
theorem test_sneImm : (after (State.reset.setReg 3 0x41) 0x4342).map (fun t => t.pc) = some 0x204 ∧
    (after (State.reset.setReg 3 0x42) 0x4342).map (fun t => t.pc) = some 0x202 := by decide
theorem test_seReg : (after (pair 1 0x09 2 0x09) 0x5120).map (fun t => t.pc) = some 0x204 ∧
    (after (pair 1 0x09 2 0x0A) 0x5120).map (fun t => t.pc) = some 0x202 := by decide
theorem test_sneReg : (after (pair 1 0x09 2 0x0A) 0x9120).map (fun t => t.pc) = some 0x204 ∧
    (after State.reset 0x9110).map (fun t => t.pc) = some 0x202 := by decide
theorem test_skip_at_the_end : (after (State.reset.setPc 0xFFC) 0x3000).map (fun t => t.pc) = some 0x1000 := by decide

/-! The address register and memory (L2.5). -/

theorem test_ldI : (after State.reset 0xA123).map (fun t => t.I) = some 0x123 := by decide
theorem test_addI : (after ((pair 0 0x01 vf 0xAA).setI 0xFFF) 0xF01E).map (fun t => (t.I, t.reg vf)) =
    some (0x000, 0xAA) := by decide
theorem test_ldF : (after (State.reset.setReg 3 0x1A) 0xF329).map (fun t => t.I) = some 0x032 := by decide
theorem test_ldB : (after ((State.reset.setReg 0 0x7B).setI 0x300) 0xF033).map (fun t => (bytes t 0x300 3, t.I)) =
    some ([1, 2, 3], 0x300) := by decide
theorem test_ldB_wraps : (after ((State.reset.setReg 0 0x80).setI 0xFFF) 0xF033).map
    (fun t => (bytes t 0xFFF 1, bytes t 0x000 3)) = some ([1], [2, 8, 0x90]) := by decide
theorem test_ldMemVx : (after ((pair 0 0x01 1 0x02).setReg 2 3 |>.setI 0xFFE) 0xF255).map
    (fun t => (bytes t 0xFFE 3, t.memRead 1, t.I)) = some ([1, 2, 3], 0x90, 0xFFE) := by decide
theorem test_ldMemVx_increment : (after (((switched .inPlace true .unchanged).setReg 0 0x5A).setI 0x300) 0xF055).map
    (fun t => (bytes t 0x300 2, t.I)) = some ([0x5A, 0x00], 0x301) := by decide
theorem test_ldVxMem : (after (State.reset.setI 0x000) 0xF265).map (fun t => (t.reg 0, t.reg 1, t.reg 2, t.reg 3, t.I)) =
    some (0xF0, 0x90, 0x90, 0, 0x000) := by decide
theorem test_ldVxMem_increment : (after ((switched .inPlace true .unchanged).setI 0x000) 0xFF65).map
    (fun t => (t.reg 0xF, t.I)) = some (0xF0, 0x010) := by decide

/-! Display, keys, timers, random (L1.5, L1.7, L2.6). -/

theorem test_cls : (after (State.reset.setFb ((Framebuffer.clear Config.atReset).setPixel 5 0 true)) 0x00E0).map
    (fun t => lit t 0 64) = some [] := by decide
theorem test_drw_wraps : (after (State.reset.setReg 0 0x3E) 0xD011).map (fun t => (lit t 0 64, t.reg vf)) =
    some ([0, 1, 62, 63], 0) := by decide
theorem test_drw_collision :
    (after (State.reset.setFb ((Framebuffer.clear Config.atReset).setPixel 2 0 true)) 0xD011).map
      (fun t => (lit t 0 64, t.reg vf)) = some ([0, 1, 3], 1) := by decide
theorem test_skp : (after ((keyDown 5).setReg 1 0x15) 0xE19E).map (fun t => t.pc) = some 0x204 ∧
    (after (State.reset.setReg 1 0x05) 0xE19E).map (fun t => t.pc) = some 0x202 := by decide
theorem test_sknp : (after (State.reset.setReg 1 0x05) 0xE1A1).map (fun t => t.pc) = some 0x204 ∧
    (after ((keyDown 5).setReg 1 0x05) 0xE1A1).map (fun t => t.pc) = some 0x202 := by decide
theorem test_ldVxK : (after (keyDown 7) 0xF30A).map (fun t => (t.run, t.pc, t.reg 3)) =
    some (.waitingForKey 3, 0x200, 0) := by decide
theorem test_ldVxDt : (after (State.reset.setDT 0x2A) 0xF507).map (fun t => (t.reg 5, t.DT)) = some (0x2A, 0x2A) := by
  decide
theorem test_ldDtVx : (after (State.reset.setReg 5 0x3C) 0xF515).map (fun t => (t.DT, t.ST)) = some (0x3C, 0) := by decide
theorem test_ldStVx : (after (State.reset.setReg 5 0x01) 0xF518).map (fun t => (t.ST, t.DT, t.toneActive)) =
    some (0x01, 0, true) := by decide

/-- With `Random8` = 0xB7: `C30F` gives 0x07 and `C300` gives 0. -/
theorem test_rnd : (rndHandler 0xB7 3 0x0F State.reset).1.reg 3 = 0x07 ∧
    (rndHandler 0xB7 3 0x00 State.reset).1.reg 3 = 0x00 := by decide

/-! The cycle, the halts and the other agents (L2.2, L2.6, L2.7). -/

/-- The run state, `pc` and timers after one step. -/
def stepped (s : State) : Option (RunState × Word × Byte × Byte) :=
  match step s with
  | .next t => some (t.run, t.pc, t.DT, t.ST)
  | .fault _ => none
  | .refused _ => none

theorem test_fetch_last_word : (after (State.reset.setPc 0xFFE) 0x1200).map (fun t => t.pc) = some 0x200 := by decide
theorem test_fetch_odd_address : (after (State.reset.setPc 0x201) 0x6A07).map (fun t => (t.reg 0xA, t.pc)) =
    some (0x07, 0x203) := by decide
theorem test_fetch_beyond : stepped (State.reset.setPc 0xFFF) = some (.halted .fetchOutOfBounds, 0xFFF, 0, 0) := by decide
theorem test_first_cycle_of_no_image : stepped State.reset = some (.halted (.decodeFailure 0x0000 0x200), 0x200, 0, 0) := by
  decide
theorem test_swapped_bytes : (after State.reset 0x0560).map (fun t => t.run) =
    some (.halted (.decodeFailure 0x0560 0x200)) := by decide
theorem test_tick_at_zero : stepped (((State.reset.setST 0x05).setRun (.waitingForKey 2)).setAgenda [.tick]) =
    some (.waitingForKey 2, 0x200, 0x00, 0x04) := by decide
theorem test_press_completes : stepped (((State.reset.setPc 0x230).setRun (.waitingForKey 3)).setAgenda [.keyPress 0xB]) =
    some (.running, 0x232, 0, 0) := by decide
theorem test_press_writes_register :
    (((State.reset.setPc 0x230).setRun (.waitingForKey 3)).pressKey 0xB).reg 3 = 0x0B := by decide
theorem test_press_while_running : stepped (State.reset.setAgenda [.keyPress 4]) = some (.running, 0x200, 0, 0) := by decide
theorem test_snapshot : (State.reset.snapshotKeys (keyDown 5).keys).key 5 = true ∧
    (State.reset.snapshotKeys (keyDown 5).keys).key 4 = false := by decide
theorem test_halted_stops : step ((State.reset.haltWith .stackOverflow).setAgenda [.tick]) =
    .fault (.halted .stackOverflow) := rfl
theorem test_halt_codes : [HaltReason.fetchOutOfBounds, .decodeFailure 0 0, .stackOverflow, .stackUnderflow,
    .memoryOutOfBounds].map HaltReason.code = [0, 1, 2, 3, 4] := by decide
theorem test_glyph_B : bytes State.reset 0x037 5 = [0xE0, 0x90, 0xE0, 0x90, 0xE0] ∧ State.reset.memRead 0x050 = 0 := by
  decide
theorem test_write_is_canonical :
    (State.reset.memWrite 0x300 7).mem = [(0x300, 7)] ∧ ((State.reset.memWrite 0x300 7).memWrite 0x300 0).mem = [] := by
  decide

/-! ### States that meet the hypotheses of the statements -/

/-- A state in which the next step runs `LD V0, 5`, at the last address a word can be fetched from. -/
def placed : State := (State.reset.setPc 0xFFE).withFetchWord 16 0x6005

theorem test_witness_EncodeOfDecode : decode 0x8AB4 = .instr (.addReg 0xA 0xB) := by decide
theorem test_witness_DecodeAcceptsExactlyTheOpcodeMap : ∀ row ∈ opcodeTable, ¬ row.Selects 0x8AB8 := by decide
theorem test_witness_OpcodeRowsHaveNoCommonWord : ∃ row ∈ opcodeTable, row.Selects 0x8AB4 := by decide
theorem test_witness_DecodedWordSelectsItsRow : decode 0xF065 = .instr (.ldVxMem 0) := by decide

theorem test_witness_StepRunsTheDecodedInstruction :
    placed.run = .running ∧ placed.nextMove = .cycle ∧ placed.pc.toNat + 2 ≤ placed.config.memSize ∧
    (0x6005 : Word).toNat = 256 * (placed.memRead placed.pc.toNat).toNat + (placed.memRead (placed.pc.toNat + 1)).toNat ∧
    decode 0x6005 = .instr (.ldImm 0 5) := by decide
theorem test_witness_FetchBeyondMemoryHalts :
    (State.reset.setPc 0xFFF).run = .running ∧ (State.reset.setPc 0xFFF).nextMove = .cycle ∧
    (State.reset.setPc 0xFFF).config.memSize < (State.reset.setPc 0xFFF).pc.toNat + 2 := by decide
theorem test_witness_UnassignedWordHalts :
    (State.reset.setPc 0xFFE).run = .running ∧ (State.reset.setPc 0xFFE).nextMove = .cycle ∧
    (State.reset.setPc 0xFFE).pc.toNat + 2 ≤ (State.reset.setPc 0xFFE).config.memSize ∧
    (0x0000 : Word).toNat = 256 * ((State.reset.setPc 0xFFE).memRead 0xFFE).toNat +
      ((State.reset.setPc 0xFFE).memRead 0xFFF).toNat ∧
    ∀ row ∈ opcodeTable, ¬ row.Selects 0x0000 := by decide
theorem test_witness_HaltedMachineHasNoStep :
    (State.reset.haltWith .fetchOutOfBounds).run = .halted .fetchOutOfBounds := rfl
theorem test_witness_PlacedWordRunsNext :
    State.reset.config.Valid ∧ decodeTableWord 16 0x00E0 = some .cls := by decide

theorem test_witness_TickDecrementsBothTimers :
    (∀ reason, (State.reset.setAgenda [.tick, .cycle]).run ≠ .halted reason) ∧
    (State.reset.setAgenda [.tick, .cycle]).agenda = .tick :: [.cycle] := ⟨nofun, rfl⟩
theorem test_witness_TickInHalted :
    ((State.reset.haltWith .stackOverflow).setAgenda [.tick]).agenda = .tick :: [] ∧
    ((State.reset.haltWith .stackOverflow).setAgenda [.tick]).run = .halted .stackOverflow := ⟨rfl, rfl⟩
theorem test_witness_KeySnapshotReplacesKeys :
    (∀ reason, ((State.reset.setRun (.waitingForKey 0)).setAgenda [.keySnapshot (keyDown 5).keys]).run ≠ .halted reason) ∧
    ((State.reset.setRun (.waitingForKey 0)).setAgenda [.keySnapshot (keyDown 5).keys]).agenda =
      .keySnapshot (keyDown 5).keys :: [] := ⟨nofun, rfl⟩
theorem test_witness_KeyPressCompletesTheWait :
    ((State.reset.setRun (.waitingForKey 0xF)).setAgenda [.keyPress 0]).run = .waitingForKey 0xF ∧
    ((State.reset.setRun (.waitingForKey 0xF)).setAgenda [.keyPress 0]).agenda = .keyPress 0 :: [] := ⟨rfl, rfl⟩
theorem test_witness_KeyPressInRunningHasNoEffect :
    (State.reset.setAgenda [.keyPress 0xF]).agenda = .keyPress 0xF :: [] ∧
    (State.reset.setAgenda [.keyPress 0xF]).run = .running := ⟨rfl, rfl⟩
theorem test_witness_KeyPressInHalted :
    ((State.reset.haltWith .stackUnderflow).setAgenda [.keyPress 0]).agenda = .keyPress 0 :: [] ∧
    ((State.reset.haltWith .stackUnderflow).setAgenda [.keyPress 0]).run = .halted .stackUnderflow := ⟨rfl, rfl⟩
theorem test_witness_WaitingCoreStandsUntilAKeyPress :
    ((State.reset.setRun (.waitingForKey 5)).setAgenda [.tick, .cycle, .keyPress 7]).run = .waitingForKey 5 ∧
    ∀ key, Move.keyPress key ∉
      ((State.reset.setRun (.waitingForKey 5)).setAgenda [.tick, .cycle, .keyPress 7]).agenda.take 2 := by decide

/-- A tick, then `LD V0, 5`: a run of two steps in which neither timer is set. -/
theorem test_witness_TimersCountTheirTicks :
    ∃ t, Host.Core.run core 2 (placed.setAgenda [.tick, .cycle]) = .next t ∧
      NoneExecuted setsDelayTimer 2 (placed.setAgenda [.tick, .cycle]) ∧
      NoneExecuted setsSoundTimer 2 (placed.setAgenda [.tick, .cycle]) := by
  have first : (placed.setAgenda [.tick, .cycle]).nextInstr = none := by decide
  have second : ((placed.setAgenda [.cycle]).tick).nextInstr = some (.ldImm 0 5) := by decide
  have none_of (sets : Instr → Bool) (h : sets (.ldImm 0 5) = false) :
      NoneExecuted sets 2 (placed.setAgenda [.tick, .cycle]) := by
    intro j hj u hu i hi
    obtain rfl | rfl : j = 0 ∨ j = 1 := by omega
    · obtain rfl := Host.Outcome.next.inj hu
      cases first.symm.trans hi
    · obtain rfl := Host.Outcome.next.inj ((run_next _ 0 (t := (placed.setAgenda [.cycle]).tick) rfl).symm.trans hu)
      obtain rfl := Option.some.inj (second.symm.trans hi)
      exact h
  exact ⟨_, rfl, none_of _ rfl, none_of _ rfl⟩

theorem test_witness_CreationSetsEveryField :
    Config.atReset.Valid ∧ Config.atReset.ImageFits (List.replicate 3584 0xFF) := by
  refine ⟨by decide, ?_⟩
  rw [Config.ImageFits, List.length_replicate]
  decide
theorem test_witness_CreationRefusesTheConfiguration :
    ¬ ({ smallest with fontBase := 1 } : Config).fontBase.toNat + 80 ≤ smallest.loadOffset.toNat := by decide
theorem test_witness_CreationRefusesTheImage :
    smallest.Valid ∧ smallest.memSize < smallest.loadOffset.toNat + [(0x12 : Byte), 0x00, 0x00].length := by decide
theorem test_witness_CreationMeetsTheInvariant : ∃ s, create smallest [0x12, 0x50] = .next s := ⟨_, rfl⟩
theorem test_witness_StepKeepsTheInvariant : placed.Inv ∧ ∃ t, step placed = .next t :=
  ⟨⟨by decide, by decide, by decide, clear_shaped _, by decide⟩, _, rfl⟩
theorem test_witness_ConfigurationNeverChanges : ∃ t, step placed = .next t := ⟨_, rfl⟩
theorem test_witness_ExplicitResetRestoresCreation :
    ∃ s t, create smallest [0x60, 0x05] = .next s ∧ Host.Core.run core 2 (s.setAgenda [.tick, .cycle]) = .next t :=
  ⟨_, _, rfl, rfl⟩

theorem test_witness_AddImmediate : State.reset.config.addImmFlag = .unchanged ∧
    (switched .inPlace false .carry).config.addImmFlag = .carry := by decide
theorem test_witness_Shift_legacy :
    ((switched .legacy false .unchanged).config.shiftQuirk = .legacy →
      0x80 = ((switched .legacy false .unchanged).setReg 1 0x80).reg 1) ∧
    ((switched .legacy false .unchanged).config.shiftQuirk = .inPlace →
      0x80 = ((switched .legacy false .unchanged).setReg 1 0x80).reg 0) := by decide
theorem test_witness_Shift_inPlace :
    ((switched .inPlace false .unchanged).config.shiftQuirk = .legacy →
      0x05 = ((switched .inPlace false .unchanged).setReg 0 0x05).reg 1) ∧
    ((switched .inPlace false .unchanged).config.shiftQuirk = .inPlace →
      0x05 = ((switched .inPlace false .unchanged).setReg 0 0x05).reg 0) := by decide
theorem test_witness_ReturnPopsItsAddress :
    (State.reset.setStack [0x402, 0x202]).stack = 0x402 :: [0x202] ∧ State.reset.stack = [] := ⟨rfl, rfl⟩
theorem test_witness_CallPushesTheNextAddress :
    (State.reset.setStack (List.replicate 15 0x202)).stack.length ≠ State.reset.config.stackDepth ∧
    (State.reset.setStack (List.replicate 16 0x202)).stack.length = State.reset.config.stackDepth := by decide
theorem test_witness_ReturnUndoesCall : State.reset.stack.length ≠ State.reset.config.stackDepth ∧
    ∃ t u : State, exec (.call 0x300) State.reset = .next t ∧ u.stack = t.stack := ⟨by decide, _, _, rfl, rfl⟩
theorem test_witness_CallsSucceedUpToTheStackDepth : State.reset.run = .running ∧
    State.reset.stack.length + (List.replicate 16 (0x200 : Addr12)).length = State.reset.config.stackDepth := by decide

/-- One witness for the statements whose hypothesis is a valid configuration: `AddToAddressWrapsAtMemorySize`,
`LoadGlyphAddress`, `StoreDecimalDigits`, `StoreRegisterBlock`, `LoadRegisterBlock`. -/
theorem test_witness_valid_configuration : State.reset.config.Valid := by decide

/-- A block of two registers stored over the next word: `V0` in its high byte, `V1` in its low byte. -/
theorem test_witness_StoredBytesAreFetched :
    (State.reset.setI 0x202).config.Valid ∧
    (∃ t, exec (.ldMemVx 1) (State.reset.setI 0x202) = .next t ∧ t.pc.toNat + 2 ≤ State.reset.config.memSize ∧
      (State.reset.setI 0x202).effective 0 % State.reset.config.memSize = t.pc.toNat ∧
      (State.reset.setI 0x202).effective 1 % State.reset.config.memSize = t.pc.toNat + 1) ∧
    (0 : RegIdx).toNat ≤ (1 : RegIdx).toNat ∧ (1 : RegIdx).toNat ≤ (1 : RegIdx).toNat :=
  ⟨by decide, ⟨_, rfl, by decide, by decide, by decide⟩, by decide, by decide⟩

theorem test_witness_DrawTogglesTheSpritePixels :
    State.reset.config.Valid ∧ FramebufferShaped State.reset.config State.reset.fb := ⟨by decide, clear_shaped _⟩
/-- The clause of a pixel hit twice, on a framebuffer of one pixel: row F0 of glyph 0 meets that pixel four times. By
R232's loops it ends unlit and `VF` is 1. -/
theorem test_witness_DrawTogglesTheSpritePixels_self_wrap :
    (State.created smallest).config.Valid ∧
    FramebufferShaped (State.created smallest).config (State.created smallest).fb ∧
    (State.created smallest).spriteHits 0 1 1 0 0 = 4 ∧ (State.created smallest).pixel 0 0 = false ∧
    (after (State.created smallest) 0xD011).map (fun t => (t.pixel 0 0, t.reg vf)) = some (false, 1) :=
  ⟨by decide, clear_shaped _, by decide, by decide, by decide⟩
theorem test_witness_CollisionIsAPixelTurnedOff :
    State.reset.config.Valid ∧ FramebufferShaped State.reset.config State.reset.fb ∧ 8 ≤ State.reset.config.fbW ∧
    (0xF : Nibble).toNat ≤ State.reset.config.fbH ∧ ∃ t, exec (.drw 0 1 0xF) State.reset = .next t :=
  ⟨by decide, clear_shaped _, by decide, by decide, _, rfl⟩
theorem test_witness_DrawingTwiceRestoresTheFramebuffer :
    State.reset.config.Valid ∧ FramebufferShaped State.reset.config State.reset.fb ∧
    ∃ t, exec (.drw 0 1 1) State.reset = .next t ∧ (State.reset.setFb t.fb).fb = t.fb ∧
      (State.reset.setFb t.fb).config = State.reset.config ∧ (State.reset.setFb t.fb).I = State.reset.I ∧
      (∀ a, (State.reset.setFb t.fb).memRead a = State.reset.memRead a) ∧
      (State.reset.setFb t.fb).reg 0 = State.reset.reg 0 ∧ (State.reset.setFb t.fb).reg 1 = State.reset.reg 1 ∧
      State.reset.pixel 0 0 = false ∧ t.pixel 0 0 = true :=
  ⟨by decide, clear_shaped _, _, rfl, rfl, rfl, rfl, fun _ => rfl, rfl, rfl, by decide, by decide⟩
theorem test_witness_SkipOnKey : (0x5 : Nibble).toNat = ((State.reset.setReg 1 0x15).reg 1).toNat % 16 := by decide

/-- `LD V0, 5` meets every premise of `SpacesChangeOnlyByTheirInstructions`, `AddressRegisterAndTimersHaveTheirWriters`
and `RunStateChangesOnlyByWaitOrStackFailure`. -/
theorem test_witness_whole_machine_rules (i : Instr) (hi : i = .ldImm 0 5) :
    (∃ t, exec i placed = .next t) ∧ (∀ x, i ≠ .ldB x) ∧ (∀ x, i ≠ .ldMemVx x) ∧ i ≠ .cls ∧
    (∀ x y n, i ≠ .drw x y n) ∧ (∀ nnn, i ≠ .call nnn) ∧ i ≠ .ret ∧ (∀ nnn, i ≠ .ldI nnn) ∧ (∀ x, i ≠ .addI x) ∧
    (∀ x, i ≠ .ldF x) ∧ (∀ x, i ≠ .ldVxMem x) ∧ (∀ x, i ≠ .ldDtVx x) ∧ (∀ x, i ≠ .ldStVx x) := by
  subst hi
  exact ⟨⟨_, rfl⟩, by simp⟩

/-- The two ways of `RegistersChangeOnlyAsDestinationOrFlag`: a register that is not named, and a flag written. -/
theorem test_witness_RegistersChangeOnlyAsDestinationOrFlag :
    namesDestination 3 (.addReg 0 1) = false ∧ writesFlag Config.atReset (.addReg 0 1) = true := by decide

end Sys2Proof.Tests
end

section
/-! PROOF. The scope of the model (spec/00_scope.md R5, R6): what creation answers, and that no step changes the
configuration. -/

namespace Sys2Proof.Machine

/-! ### What creation answers (R6, R300, R301) -/

theorem create_of_fits {c : Config} {image : List Byte} (hvalid : c.Valid) (hfits : c.ImageFits image) :
    create c image = .next { State.created c with mem := Memory.load c [] c.loadOffset.toNat image } := by
  rw [create, if_pos hvalid, if_pos hfits]

theorem create_of_not_fits {c : Config} {image : List Byte} (hvalid : c.Valid) (hfits : ¬ c.ImageFits image) :
    create c image = .refused .imageTooLarge := by
  rw [create, if_pos hvalid, if_neg hfits]

theorem create_of_not_valid {c : Config} (image : List Byte) (hvalid : ¬ c.Valid) :
    create c image = .refused .invalidConfiguration := by
  rw [create, if_neg hvalid]

/-- The one way creation answers a state. -/
theorem create_next_cases {c : Config} {image : List Byte} {s : State} (h : create c image = .next s) :
    c.Valid ∧ c.ImageFits image ∧
      s = { State.created c with mem := Memory.load c [] c.loadOffset.toNat image } := by
  by_cases hvalid : c.Valid
  · by_cases hfits : c.ImageFits image
    · rw [create_of_fits hvalid hfits] at h
      exact ⟨hvalid, hfits, (Host.Outcome.next.inj h).symm⟩
    · cases (create_of_not_fits hvalid hfits).symm.trans h
  · cases (create_of_not_valid image hvalid).symm.trans h

/-- The configuration is refused exactly when it is invalid, whatever the image. -/
theorem create_eq_invalidConfiguration_iff {c : Config} {image : List Byte} :
    create c image = .refused .invalidConfiguration ↔ ¬ c.Valid := by
  refine ⟨fun h hvalid => ?_, create_of_not_valid image⟩
  by_cases hfits : c.ImageFits image
  · cases (create_of_fits hvalid hfits).symm.trans h
  · cases (create_of_not_fits hvalid hfits).symm.trans h

/-- R6 as it is written, `LOAD_OFFSET ≤ MEM_SIZE − 2` on the integers, is the model's `Valid`. -/
theorem configValid_iff (c : Config) :
    c.Valid ↔ c.fontBase.toNat + 80 ≤ c.loadOffset.toNat ∧ (c.loadOffset.toNat : Int) ≤ c.memSize - 2 ∧
      c.memSize ≤ 65536 ∧ 1 ≤ c.stackDepth ∧ 1 ≤ c.fbW ∧ 1 ≤ c.fbH := by
  have hroom : c.ProgramInMemory ↔ (c.loadOffset.toNat : Int) ≤ c.memSize - 2 := by
    unfold Config.ProgramInMemory
    omega
  rw [Config.Valid, hroom]

/-- Memory that holds no changed cell is in canonical form. -/
theorem Memory.wf_nil (c : Config) : Memory.wf c [] := ⟨.nil, by simp⟩

/-! ### The configuration under the moves of the agents (R5, R33) -/

@[simp] theorem State.tick_config (s : State) : s.tick.config = s.config := rfl

@[simp] theorem State.snapshotKeys_config (s : State) (keys : Vector Bool 16) :
    (s.snapshotKeys keys).config = s.config := rfl

@[simp] theorem State.pressKey_config (s : State) (k : Nibble) : (s.pressKey k).config = s.config := by
  unfold State.pressKey
  split <;> rfl

/-- The core's turn keeps the configuration: it stands, halts, or executes one instruction. -/
theorem coreTurn_config {s t : State} (h : coreTurn s = .next t) : t.config = s.config := by
  obtain ⟨-, rfl⟩ | ⟨-, ⟨-, rfl⟩ | ⟨_, _, -, -, rfl⟩ | ⟨_, _, -, -, hexec⟩⟩ := coreTurn_cases s h
  · rfl
  · rfl
  · rfl
  · exact exec_config s hexec

end Sys2Proof.Machine

open Sys2Proof Sys2Proof.Machine

/-- Settles O21: the created state has every field of the invariant, and memory by the law of loading an image. -/
theorem creationMeetsTheInvariant : Obligations.CreationMeetsTheInvariant := by
  intro c image s h
  obtain ⟨hvalid, hfits, rfl⟩ := create_next_cases h
  exact {
    configValid := hvalid
    memoryCanonical := Memory.load_wf (Memory.wf_nil c) hfits
    stackBounded := Nat.zero_le _
    framebufferShaped := clear_shaped c
    addressRegisterInRange := fun hsize => Nat.lt_of_lt_of_le (by decide : 0 < 4096) hsize }

/-- Settles O23, by the cases of a step: the core's turn, a tick, a key snapshot, a key press. -/
theorem configurationNeverChanges : Obligations.ConfigurationNeverChanges := by
  intro s t h
  obtain ⟨-, ⟨-, hturn⟩ | ⟨_, -, rfl⟩ | ⟨_, _, -, rfl⟩ | ⟨_, _, -, rfl⟩⟩ := step_cases s h
  · exact (coreTurn_config hturn).trans (State.setAgenda_config s _)
  · simp
  · simp
  · simp

/-- Settles O19: each refusal by the condition under which creation answers it; the two forms of R6's bound on the load offset agree. -/
theorem creationRefusesWhatIsMalformed : Obligations.CreationRefusesWhatIsMalformed := by
  intro c image
  refine ⟨?_, fun hvalid hlong => ?_⟩
  · rw [create_eq_invalidConfiguration_iff, configValid_iff]
  · exact create_of_not_fits hvalid (Nat.not_le.2 hlong)

end

section
/-! PROOF. What the instructions with more than one outcome can do: the skips, `CALL`, `RET` and `ADD Vx, NN`. -/

namespace Sys2Proof.Machine

variable {s t : State}

/-- A skip answers the state it began with, with `pc` written (R171). -/
theorem skipIf_cases {b : Bool} (h : complete s (skipIf b s) = .next t) : ∃ a, t = s.setPc a := by
  rw [complete_skipIf] at h
  exact ⟨_, (Host.Outcome.next.inj h).symm⟩

theorem execCall_full (nnn : Addr12) (hfull : s.stack.length = s.config.stackDepth) :
    execCall nnn s = .next (s.haltWith .stackOverflow) := by
  rw [execCall, push_full s _ hfull, complete_halt]

theorem execCall_free (nnn : Addr12) (hfree : s.stack.length ≠ s.config.stackDepth) :
    execCall nnn s = .next ((s.setStack (s.nextPc :: s.stack)).setPc (absoluteAddress nnn)) := by
  rw [execCall, push_free s _ hfree, complete_done]

/-- Everything `CALL` can do (R175, R268). -/
theorem execCall_cases {nnn : Addr12} (h : execCall nnn s = .next t) :
    (s.stack.length = s.config.stackDepth ∧ t = s.haltWith .stackOverflow) ∨
    (s.stack.length ≠ s.config.stackDepth ∧
      t = (s.setStack (s.nextPc :: s.stack)).setPc (absoluteAddress nnn)) := by
  by_cases hfull : s.stack.length = s.config.stackDepth
  · rw [execCall_full nnn hfull] at h
    exact .inl ⟨hfull, (Host.Outcome.next.inj h).symm⟩
  · rw [execCall_free nnn hfull] at h
    exact .inr ⟨hfull, (Host.Outcome.next.inj h).symm⟩

/-- Everything `RET` can do (R173, R269). -/
theorem execRet_cases (h : execRet s = .next t) :
    (s.stack = [] ∧ t = s.haltWith .stackUnderflow) ∨
    (∃ top rest, s.stack = top :: rest ∧ t = (s.setStack rest).setPc top) := by
  cases hstack : s.stack with
  | nil =>
    rw [execRet, pop_empty s hstack] at h
    exact .inl ⟨rfl, (Host.Outcome.next.inj h).symm⟩
  | cons top rest =>
    rw [execRet, pop_cons s hstack] at h
    exact .inr ⟨top, rest, rfl, (Host.Outcome.next.inj h).symm⟩

/-- Everything `ADD Vx, NN` can do, by `ADD_IMM_FLAG` (R136). -/
theorem execAddImm_cases {x : RegIdx} {nn : Byte} (h : execAddImm x nn s = .next t) :
    (s.config.addImmFlag = .unchanged ∧ t = (s.setReg x (s.reg x + nn)).setPc s.nextPc) ∨
    (s.config.addImmFlag = .carry ∧
      t = (s.setRegThenFlag x (s.reg x + nn) (carryFlag (s.reg x) nn)).setPc s.nextPc) := by
  cases hflag : s.config.addImmFlag with
  | unchanged =>
    rw [execAddImm, hflag] at h
    exact .inl ⟨rfl, (Host.Outcome.next.inj h).symm⟩
  | carry =>
    rw [execAddImm, hflag] at h
    exact .inr ⟨rfl, (Host.Outcome.next.inj h).symm⟩

end Sys2Proof.Machine

end

section
/-! PROOF. The invariant of the machine (spec/10_state.md R27, R30, R37; spec/20_memory.md R51): each operation on the
state keeps it, so each instruction, each event and each step does. -/

namespace Sys2Proof.Machine

variable {s t : State}

/-! ### The operations on the state -/

namespace State.Inv

theorem memSize_pos (h : s.Inv) : 0 < s.config.memSize := by
  obtain ⟨-, hroom, -⟩ := h.configValid
  unfold Config.ProgramInMemory at hroom
  omega

theorem setReg (h : s.Inv) (x : RegIdx) (v : Byte) : (s.setReg x v).Inv := { h with }

theorem setRegThenFlag (h : s.Inv) (x : RegIdx) (v f : Byte) : (s.setRegThenFlag x v f).Inv := { h with }

theorem setPc (h : s.Inv) (a : Word) : (s.setPc a).Inv := { h with }

theorem setDT (h : s.Inv) (v : Byte) : (s.setDT v).Inv := { h with }

theorem setST (h : s.Inv) (v : Byte) : (s.setST v).Inv := { h with }

theorem setKeys (h : s.Inv) (keys : Vector Bool 16) : (s.setKeys keys).Inv := { h with }

theorem setRun (h : s.Inv) (r : RunState) : (s.setRun r).Inv := { h with }

theorem haltWith (h : s.Inv) (reason : HaltReason) : (s.haltWith reason).Inv := h.setRun _

theorem setAgenda (h : s.Inv) (moves : List Move) : (s.setAgenda moves).Inv := { h with }

theorem countDraw (h : s.Inv) : s.countDraw.Inv := { h with }

theorem setI (h : s.Inv) {a : Word} (ha : 4096 ≤ s.config.memSize → a.toNat < s.config.memSize) : (s.setI a).Inv :=
  { h with addressRegisterInRange := ha }

theorem setStack (h : s.Inv) {entries : List Word} (hlen : entries.length ≤ s.config.stackDepth) :
    (s.setStack entries).Inv :=
  { h with stackBounded := hlen }

theorem setFb (h : s.Inv) {fb : Framebuffer} (hfb : FramebufferShaped s.config fb) : (s.setFb fb).Inv :=
  { h with framebufferShaped := hfb }

theorem memWrite (h : s.Inv) (a : Nat) (v : Byte) : (s.memWrite a v).Inv :=
  { h with memoryCanonical := State.memWrite_wf a v h.memoryCanonical h.memSize_pos }

theorem storeRegs (h : s.Inv) (n : Nat) : (s.storeRegs n).Inv := by
  induction n with
  | zero => exact h
  | succ k ih => exact ih.memWrite _ _

theorem loadRegs (h : s.Inv) (n : Nat) : (s.loadRegs n).Inv := by
  induction n with
  | zero => exact h
  | succ k ih => exact ih.setReg _ _

/-- `I + k` reduced mod `MEM_SIZE` lies in memory. -/
theorem setI_advanced (h : s.Inv) (k : Nat) : (s.setI (s.advancedI k)).Inv :=
  h.setI fun _ => by
    rw [advancedI_toNat s k h.configValid]
    exact Nat.mod_lt _ h.memSize_pos

theorem incrementI (h : s.Inv) (x : RegIdx) : (s.incrementI x).Inv := by
  unfold State.incrementI
  split
  · exact h.setI_advanced _
  · exact h

/-- A 12-bit address lies in a memory of 4096 bytes or more. -/
theorem setI_absolute (h : s.Inv) (nnn : Addr12) : (s.setI (absoluteAddress nnn)).Inv :=
  h.setI fun hsize => by
    rw [absoluteAddress_toNat]
    exact Nat.lt_of_lt_of_le nnn.isLt hsize

/-- The glyph table, and so each glyph's address, lies below the program. -/
theorem setI_glyph (h : s.Inv) (k : Nibble) :
    (s.setI (BitVec.ofNat 16 (s.config.fontBase.toNat + 5 * k.toNat))).Inv :=
  h.setI fun _ => by
    obtain ⟨hfont, hroom, -⟩ := h.configValid
    unfold Config.FontBelowProgram at hfont
    unfold Config.ProgramInMemory at hroom
    rw [BitVec.toNat_ofNat]
    exact (Nat.mod_le _ _).trans_lt (by omega)

end State.Inv

/-! ### The instructions -/

/-- Every instruction keeps the invariant. -/
theorem exec_inv {i : Instr} (hs : s.Inv) (h : exec i s = .next t) : t.Inv := by
  cases i
  case seImm | sneImm | seReg | sneReg | skp | sknp =>
    obtain ⟨a, rfl⟩ := skipIf_cases h
    exact hs.setPc a
  case call nnn =>
    obtain ⟨-, rfl⟩ | ⟨hfree, rfl⟩ := execCall_cases h
    · exact hs.haltWith _
    · have hroom : (s.nextPc :: s.stack).length ≤ s.config.stackDepth :=
        Nat.lt_of_le_of_ne hs.stackBounded hfree
      exact (hs.setStack hroom).setPc _
  case ret =>
    obtain ⟨-, rfl⟩ | ⟨top, rest, hstack, rfl⟩ := execRet_cases h
    · exact hs.haltWith _
    · have hrest : rest.length ≤ s.config.stackDepth :=
        (Nat.le_succ _).trans (by simpa [hstack] using hs.stackBounded)
      exact (hs.setStack hrest).setPc top
  case addImm x nn =>
    obtain ⟨-, rfl⟩ | ⟨-, rfl⟩ := execAddImm_cases h
    · exact (hs.setReg _ _).setPc _
    · exact (hs.setRegThenFlag _ _ _).setPc _
  all_goals obtain rfl := Host.Outcome.next.inj h
  case cls => exact (hs.setFb (clear_shaped _)).setPc _
  case drw x y n =>
    obtain ⟨hdraw, -⟩ := drawPixels_sprite s x y n hs.configValid hs.framebufferShaped
    exact ((hs.setFb hdraw).setReg _ _).setPc _
  case jp | jpV0 => exact hs.setPc _
  case ldImm | ldReg | orReg | andReg | xorReg | ldVxDt => exact (hs.setReg _ _).setPc _
  case addReg | sub | subn | shr | shl => exact (hs.setRegThenFlag _ _ _).setPc _
  case rnd => exact (hs.countDraw.setReg _ _).setPc _
  case ldVxK => exact hs.setRun _
  case ldDtVx => exact (hs.setDT _).setPc _
  case ldStVx => exact (hs.setST _).setPc _
  case ldI nnn => exact (hs.setI_absolute nnn).setPc _
  case addI => exact (hs.setI_advanced _).setPc _
  case ldF => exact (hs.setI_glyph _).setPc _
  case ldB => exact (((hs.memWrite _ _).memWrite _ _).memWrite _ _).setPc _
  case ldMemVx x => exact ((hs.storeRegs _).incrementI x).setPc _
  case ldVxMem x => exact ((hs.loadRegs _).incrementI x).setPc _

/-! ### The moves of the agents -/

theorem State.Inv.tick (h : s.Inv) : s.tick.Inv := (h.setDT _).setST _

theorem State.Inv.snapshotKeys (h : s.Inv) (keys : Vector Bool 16) : (s.snapshotKeys keys).Inv := h.setKeys keys

theorem State.Inv.pressKey (h : s.Inv) (k : Nibble) : (s.pressKey k).Inv := by
  unfold State.pressKey
  split
  · exact ((h.setReg _ _).setPc _).setRun _
  · exact h
  · exact h

/-- The core's turn keeps the invariant: it stands, halts, or executes one instruction. -/
theorem coreTurn_inv (hs : s.Inv) (h : coreTurn s = .next t) : t.Inv := by
  obtain ⟨-, rfl⟩ | ⟨-, ⟨-, rfl⟩ | ⟨_, _, -, -, rfl⟩ | ⟨_, _, -, -, hexec⟩⟩ := coreTurn_cases s h
  · exact hs
  · exact hs.haltWith _
  · exact hs.haltWith _
  · exact exec_inv hs hexec

end Sys2Proof.Machine

open Sys2Proof Sys2Proof.Machine

/-- Settles O22, by the cases of a step: the core's turn, a tick, a key snapshot, a key press. -/
theorem stepKeepsTheInvariant : Obligations.StepKeepsTheInvariant := by
  intro s t hs h
  obtain ⟨-, ⟨-, hturn⟩ | ⟨rest, -, rfl⟩ | ⟨keys, rest, -, rfl⟩ | ⟨k, rest, -, rfl⟩⟩ := step_cases s h
  · exact coreTurn_inv (hs.setAgenda _) hturn
  · exact (hs.setAgenda rest).tick
  · exact (hs.setAgenda rest).snapshotKeys keys
  · exact (hs.setAgenda rest).pressKey k

/-- Settles O20: reset is creation from the decided configuration and no image, and creation meets the invariant. -/
theorem resetMeetsTheInvariant : Obligations.ResetMeetsTheInvariant := by
  have hreset : create Config.atReset [] = .next State.reset :=
    create_of_fits (by decide) (by decide)
  exact ⟨creationMeetsTheInvariant _ _ _ hreset, hreset⟩

end

section
/-! PROOF. Creation sets every field (spec/10_state.md R36), and calls up to the depth of the stack (R26). -/

namespace Sys2Proof.Machine

/-! ### Memory as creation loads it (R36, R301, R303) -/

theorem Memory.creationByte_font (c : Config) {j : Nat} (hj : j < 80) :
    Memory.creationByte c (c.fontBase.toNat + j) = c.font[j] := by
  simp [Memory.creationByte, hj]

theorem Memory.creationByte_outside_font (c : Config) {a : Nat}
    (ha : a < c.fontBase.toNat ∨ c.fontBase.toNat + 80 ≤ a) : Memory.creationByte c a = 0 := by
  rw [Memory.creationByte, dif_neg (by omega)]

/-- Loading an image leaves every byte outside it alone. -/
theorem Memory.read_load_outside (c : Config) (m : Memory) {a b : Nat} {image : List Byte}
    (h : b < a ∨ a + image.length ≤ b) : Memory.read c (Memory.load c m a image) b = Memory.read c m b := by
  induction image generalizing m a with
  | nil => rfl
  | cons v bytes ih =>
    rw [List.length_cons] at h
    rw [Memory.load, ih _ (by omega), Memory.read_write_ne c m v (by omega)]

/-- Loading an image puts its bytes in order from `a` on. -/
theorem Memory.read_load_inside (c : Config) (m : Memory) (a : Nat) {image : List Byte} {j : Nat}
    (hj : j < image.length) : Memory.read c (Memory.load c m a image) (a + j) = image[j] := by
  induction image generalizing m a j with
  | nil => exact absurd hj (Nat.not_lt_zero j)
  | cons v bytes ih =>
    cases j with
    | zero =>
      rw [Memory.load, Memory.read_load_outside c _ (.inl (by omega)), Nat.add_zero, Memory.read_write_self]
      rfl
    | succ k =>
      rw [Memory.load, show a + (k + 1) = a + 1 + k by omega, ih _ _ (Nat.lt_of_succ_lt_succ hj)]
      rfl

/-- Inside memory an access is not reduced (R51). -/
theorem State.memRead_of_lt {s : State} {a : Nat} (ha : a < s.config.memSize) :
    s.memRead a = Memory.read s.config s.mem a := by
  rw [State.memRead, Nat.mod_eq_of_lt ha]

@[simp] theorem State.created_reg (c : Config) (r : RegIdx) : (State.created c).reg r = 0 := by
  simp [State.reg, State.created]

@[simp] theorem State.created_key (c : Config) (k : Nibble) : (State.created c).key k = false := by
  simp [State.key, State.created]

/-! ### Calls in turn (R26) -/

/-- A call on a stack that is not full succeeds, and the others go on from its next state. -/
theorem callEach_cons_of_free {s : State} (target : Addr12) (targets : List Addr12)
    (hfree : s.stack.length ≠ s.config.stackDepth) :
    s.callEach (target :: targets) =
      ((s.setStack (s.nextPc :: s.stack)).setPc (absoluteAddress target)).callEach targets := by
  have hcall : exec (.call target) s = _ := execCall_free target hfree
  simp [State.callEach, hcall]

/-- As many calls as the stack has room for all succeed, each with one entry more. -/
theorem callEach_of_room {targets : List Addr12} {s : State}
    (hroom : s.stack.length + targets.length ≤ s.config.stackDepth) :
    ∃ t, s.callEach targets = some t ∧ t.config = s.config ∧
      t.stack.length = s.stack.length + targets.length := by
  induction targets generalizing s with
  | nil => exact ⟨s, rfl, rfl, rfl⟩
  | cons target targets ih =>
    rw [List.length_cons] at hroom
    rw [callEach_cons_of_free target targets (by omega)]
    obtain ⟨t, ht, hconfig, hlen⟩ :=
      ih (s := (s.setStack (s.nextPc :: s.stack)).setPc (absoluteAddress target)) (by simp; omega)
    refine ⟨t, ht, by simpa using hconfig, ?_⟩
    simp only [State.setPc_stack, State.setStack_stack, List.length_cons] at hlen ⊢
    omega

end Sys2Proof.Machine

open Sys2Proof Sys2Proof.Machine

/-- Settles O18: the fields by the created state, memory by reading what was loaded, in the three parts of memory. -/
theorem creationSetsEveryField : Obligations.CreationSetsEveryField := by
  intro c image hvalid hfits
  have ⟨hfont, hroom, _⟩ := hvalid
  unfold Config.FontBelowProgram at hfont
  unfold Config.ProgramInMemory at hroom
  unfold Config.ImageFits at hfits
  refine ⟨_, create_of_fits hvalid hfits, rfl, State.created_reg c, rfl, rfl, rfl, rfl, rfl, rfl,
    State.created_key c, clear_shaped c, clear_pixel c, fun j hj => ?_, fun j hj => ?_, fun a ha hglyph himage => ?_⟩
  · rw [State.memRead_of_lt (show c.fontBase.toNat + j < c.memSize by omega)]
    exact (Memory.read_load_outside c [] (.inl (by omega))).trans (Memory.creationByte_font c hj)
  · rw [State.memRead_of_lt (show c.loadOffset.toNat + j < c.memSize by omega)]
    exact Memory.read_load_inside c [] _ hj
  · rw [State.memRead_of_lt (show a < c.memSize from ha)]
    exact (Memory.read_load_outside c [] himage).trans (Memory.creationByte_outside_font c hglyph)

/-- Settles O41, by induction on the targets: the calls fill the stack, and the call after them finds it full. -/
theorem callsSucceedUpToTheStackDepth : Obligations.CallsSucceedUpToTheStackDepth := by
  intro targets nnn s _ hlen
  obtain ⟨t, ht, hconfig, hstack⟩ := callEach_of_room (Nat.le_of_eq hlen)
  have hfull : t.stack.length = t.config.stackDepth := by rw [hstack, hlen, hconfig]
  exact ⟨t, _, ht, hstack.trans hlen, execCall_full nnn hfull, rfl, rfl⟩

end

section
/-! PROOF. The parts of the state that each instruction may write, and the registers that it writes
(spec/10_state.md R22, R23, R28, R29; spec/41_alu.md R134). -/

namespace Sys2Proof.Machine

/-- The parts that an instruction may write. A register block writes `I` under `LOADSTORE_INC` (R205, R206). -/
def mayWrite (c : Config) : Instr → List Part
  | .jp _ | .jpV0 _ | .seImm _ _ | .sneImm _ _ | .seReg _ _ | .sneReg _ _ | .skp _ | .sknp _ => [.pc]
  | .ret | .call _ => [.pc, .stack, .run]
  | .ldImm _ _ | .addImm _ _ | .ldReg _ _ | .orReg _ _ | .andReg _ _ | .xorReg _ _ => [.V, .pc]
  | .addReg _ _ | .sub _ _ | .subn _ _ | .shr _ _ | .shl _ _ | .ldVxDt _ => [.V, .pc]
  | .rnd _ _ => [.V, .pc, .draws]
  | .cls => [.fb, .pc]
  | .drw _ _ _ => [.V, .fb, .pc]
  | .ldVxK _ => [.run]
  | .ldDtVx _ => [.DT, .pc]
  | .ldStVx _ => [.ST, .pc]
  | .ldI _ | .addI _ | .ldF _ => [.I, .pc]
  | .ldB _ => [.mem, .pc]
  | .ldMemVx _ => [.mem, .pc] ++ if c.loadStoreInc then [.I] else []
  | .ldVxMem _ => [.V, .pc] ++ if c.loadStoreInc then [.I] else []

variable {s t : State} {i : Instr} {parts : List Part}

/-! ### What each operation on the state keeps -/

theorem Unchanged.trans {u : State} {p : Part} (hst : Unchanged s t p) (htu : Unchanged t u p) : Unchanged s u p := by
  cases p
  case mem | V => exact fun a => (htu a).trans (hst a)
  all_goals exact Eq.trans htu hst

namespace KeepsAllBut

theorem refl (parts : List Part) (s : State) : KeepsAllBut parts s s := by
  intro p _
  cases p <;> simp [Unchanged]

/-- A further update that writes one of the listed parts only; the laws of the state say that it leaves the others. -/
theorem update {u : State} {p : Part} (h : KeepsAllBut parts s t) (hp : p ∈ parts)
    (hu : ∀ q, q ≠ p → Unchanged t u q := by intro q hq; cases q <;> simp_all [Unchanged]) : KeepsAllBut parts s u :=
  fun q hq => (h q hq).trans (hu q fun e => hq (e ▸ hp))

section
variable (h : KeepsAllBut parts s t)
include h

theorem setReg (x : RegIdx) (v : Byte) (hV : .V ∈ parts := by simp [mayWrite]) :
    KeepsAllBut parts s (t.setReg x v) := h.update hV

theorem setRegThenFlag (x : RegIdx) (v f : Byte) (hV : .V ∈ parts := by simp [mayWrite]) :
    KeepsAllBut parts s (t.setRegThenFlag x v f) := (h.setReg x v hV).setReg vf f hV

theorem setPc (a : Word) (hpc : .pc ∈ parts := by simp [mayWrite]) : KeepsAllBut parts s (t.setPc a) := h.update hpc

theorem setRun (r : RunState) (hrun : .run ∈ parts := by simp [mayWrite]) : KeepsAllBut parts s (t.setRun r) :=
  h.update hrun

theorem haltWith (reason : HaltReason) (hrun : .run ∈ parts := by simp [mayWrite]) :
    KeepsAllBut parts s (t.haltWith reason) := h.setRun _ hrun

theorem setStack (entries : List Word) (hstack : .stack ∈ parts := by simp [mayWrite]) :
    KeepsAllBut parts s (t.setStack entries) := h.update hstack

theorem setFb (fb : Framebuffer) (hfb : .fb ∈ parts := by simp [mayWrite]) : KeepsAllBut parts s (t.setFb fb) :=
  h.update hfb

theorem setDT (v : Byte) (hDT : .DT ∈ parts := by simp [mayWrite]) : KeepsAllBut parts s (t.setDT v) := h.update hDT

theorem setST (v : Byte) (hST : .ST ∈ parts := by simp [mayWrite]) : KeepsAllBut parts s (t.setST v) := h.update hST

theorem setI (a : Word) (hI : .I ∈ parts := by simp [mayWrite]) : KeepsAllBut parts s (t.setI a) := h.update hI

theorem countDraw (hdraws : .draws ∈ parts := by simp [mayWrite]) : KeepsAllBut parts s t.countDraw := h.update hdraws

theorem memWrite (a : Nat) (v : Byte) (hmem : .mem ∈ parts := by simp [mayWrite]) :
    KeepsAllBut parts s (t.memWrite a v) := h.update hmem

theorem storeRegs (n : Nat) (hmem : .mem ∈ parts := by simp [mayWrite]) : KeepsAllBut parts s (t.storeRegs n) :=
  h.update hmem

theorem loadRegs (n : Nat) (hV : .V ∈ parts := by simp [mayWrite]) : KeepsAllBut parts s (t.loadRegs n) := h.update hV

theorem incrementI (x : RegIdx) (hI : t.config.loadStoreInc = true → .I ∈ parts := by simp +contextual [mayWrite]) :
    KeepsAllBut parts s (t.incrementI x) := by
  unfold State.incrementI
  split
  case isTrue hinc => exact h.setI _ (hI hinc)
  case isFalse => exact h

end

end KeepsAllBut

/-! ### What each instruction keeps -/

/-- An instruction changes no part but those it may write. -/
theorem exec_keepsAllBut (h : exec i s = .next t) : KeepsAllBut (mayWrite s.config i) s t := by
  have hs := KeepsAllBut.refl (mayWrite s.config i) s
  cases i
  case seImm | sneImm | seReg | sneReg | skp | sknp =>
    obtain ⟨a, rfl⟩ := skipIf_cases h
    exact hs.setPc a
  case call =>
    obtain ⟨-, rfl⟩ | ⟨-, rfl⟩ := execCall_cases h
    · exact hs.haltWith _
    · exact (hs.setStack _).setPc _
  case ret =>
    obtain ⟨-, rfl⟩ | ⟨_, _, -, rfl⟩ := execRet_cases h
    · exact hs.haltWith _
    · exact (hs.setStack _).setPc _
  case addImm =>
    obtain ⟨-, rfl⟩ | ⟨-, rfl⟩ := execAddImm_cases h
    · exact (hs.setReg _ _).setPc _
    · exact (hs.setRegThenFlag _ _ _).setPc _
  all_goals obtain rfl := Host.Outcome.next.inj h
  case jp | jpV0 => exact hs.setPc _
  case ldImm | ldReg | orReg | andReg | xorReg | ldVxDt => exact (hs.setReg _ _).setPc _
  case addReg | sub | subn | shr | shl => exact (hs.setRegThenFlag _ _ _).setPc _
  case rnd => exact (hs.countDraw.setReg _ _).setPc _
  case cls => exact (hs.setFb _).setPc _
  case drw => exact ((hs.setFb _).setReg _ _).setPc _
  case ldVxK => exact hs.setRun _
  case ldDtVx => exact (hs.setDT _).setPc _
  case ldStVx => exact (hs.setST _).setPc _
  case ldI | addI | ldF => exact (hs.setI _).setPc _
  case ldB => exact (((hs.memWrite _ _).memWrite _ _).memWrite _ _).setPc _
  case ldMemVx => exact ((hs.storeRegs _).incrementI _).setPc _
  case ldVxMem => exact ((hs.loadRegs _).incrementI _).setPc _

/-! ### The writers of the address register and the timers (R23, R28, R29) -/

theorem mayWrite_I {c : Config} (h : .I ∈ mayWrite c i) :
    (∃ nnn, i = .ldI nnn) ∨ (∃ x, i = .addI x) ∨ (∃ x, i = .ldF x) ∨
      (c.loadStoreInc = true ∧ ((∃ x, i = .ldMemVx x) ∨ ∃ x, i = .ldVxMem x)) := by
  cases i <;> simp_all [mayWrite]

theorem mayWrite_DT {c : Config} (h : .DT ∈ mayWrite c i) : ∃ x, i = .ldDtVx x := by
  cases i <;> simp_all [mayWrite]

theorem mayWrite_ST {c : Config} (h : .ST ∈ mayWrite c i) : ∃ x, i = .ldStVx x := by
  cases i <;> simp_all [mayWrite]

/-! ### The registers (R22, R134) -/

/-- The registers after an instruction: each that it does not name as its destination, `VF` also not as its flag, is
unchanged, and a flag written is 0 or 1. -/
def RegsWrittenAsNamed (i : Instr) (s t : State) : Prop :=
  (∀ r, namesDestination r i = false → (r = vf → writesFlag s.config i = false) → t.reg r = s.reg r) ∧
    (writesFlag s.config i = true → t.reg vf = 0 ∨ t.reg vf = 1)

namespace RegsWrittenAsNamed

theorem of_no_flag (hflag : writesFlag s.config i = false)
    (h : ∀ r, namesDestination r i = false → t.reg r = s.reg r) : RegsWrittenAsNamed i s t :=
  ⟨fun r hr _ => h r hr, fun hwrites => absurd hwrites (by simp [hflag])⟩

theorem of_flag (hflag : writesFlag s.config i = true)
    (h : ∀ r, namesDestination r i = false → r ≠ vf → t.reg r = s.reg r) {b : Bool} (hvf : t.reg vf = flagByte b) :
    RegsWrittenAsNamed i s t := by
  refine ⟨fun r hr hvf => h r hr fun e => ?_, fun _ => ?_⟩
  · exact Bool.false_ne_true ((hvf e).symm.trans hflag)
  · rw [hvf]
    cases b
    · exact .inl rfl
    · exact .inr rfl

theorem ne_of_destination {x r : RegIdx} (hx : namesDestination x i = true) (hr : namesDestination r i = false) :
    r ≠ x := by
  rintro rfl
  exact Bool.false_ne_true (hr.symm.trans hx)

theorem of_setReg {x : RegIdx} {v : Byte} (hflag : writesFlag s.config i = false) (hx : namesDestination x i = true)
    (ht : ∀ r, t.reg r = (s.setReg x v).reg r) : RegsWrittenAsNamed i s t :=
  of_no_flag hflag fun r hr => (ht r).trans (State.setReg_reg_ne s v (ne_of_destination hx hr))

theorem of_setRegThenFlag {x : RegIdx} {v : Byte} {b : Bool} (hflag : writesFlag s.config i = true)
    (hx : namesDestination x i = true) (ht : ∀ r, t.reg r = (s.setRegThenFlag x v (flagByte b)).reg r) :
    RegsWrittenAsNamed i s t := by
  refine of_flag hflag (fun r hr hne => ?_) ((ht vf).trans (State.setRegThenFlag_reg_vf s x v _))
  rw [ht, State.setRegThenFlag_reg, if_neg hne, if_neg (ne_of_destination hx hr)]

end RegsWrittenAsNamed

/-- Every instruction writes registers as its destination and its flag say. -/
theorem exec_regsWrittenAsNamed (h : exec i s = .next t) : RegsWrittenAsNamed i s t := by
  have hkept := exec_keepsAllBut h .V
  cases i
  case cls | ret | jp | call | seImm | sneImm | seReg | sneReg | ldI | jpV0 | skp | sknp | ldVxK | ldDtVx | ldStVx |
      addI | ldF | ldB | ldMemVx =>
    exact .of_no_flag rfl fun r _ => hkept (by simp [mayWrite]) r
  case addImm =>
    obtain ⟨hflag, rfl⟩ | ⟨hflag, rfl⟩ := execAddImm_cases h
    · exact .of_setReg (by simp [writesFlag, hflag]) (decide_eq_true rfl) fun _ => rfl
    · exact .of_setRegThenFlag (by simp [writesFlag, hflag]) (decide_eq_true rfl) fun _ => rfl
  all_goals obtain rfl := Host.Outcome.next.inj h
  case ldImm | ldReg | orReg | andReg | xorReg | rnd | ldVxDt =>
    exact .of_setReg rfl (decide_eq_true rfl) fun _ => rfl
  case addReg | sub | subn | shr | shl =>
    exact .of_setRegThenFlag rfl (decide_eq_true rfl) fun _ => rfl
  case drw => exact .of_flag rfl (fun r _ hne => State.setReg_reg_ne _ _ hne) (State.setReg_reg_self _ _ _)
  case ldVxMem x =>
    refine .of_no_flag rfl fun r hr => ?_
    have hout : ¬ r.toNat < x.toNat + 1 := by simpa [namesDestination, Nat.lt_succ_iff] using hr
    rw [State.setPc_reg, incrementI_reg, loadRegs_reg s _ x.isLt, if_neg hout]

end Sys2Proof.Machine

open Sys2Proof Sys2Proof.Machine

/-- Settles O57: the next state by `exec_next`, its registers by the cases of the instructions. -/
theorem registersChangeOnlyAsDestinationOrFlag : Obligations.RegistersChangeOnlyAsDestinationOrFlag := by
  intro i s
  obtain ⟨t, ht⟩ := exec_next s i
  exact ⟨t, ht, exec_regsWrittenAsNamed ht⟩

/-- Settles O59: an instruction changes only the parts it may write, and these three have the writers that the spec
lists. -/
theorem addressRegisterAndTimersHaveTheirWriters : Obligations.AddressRegisterAndTimersHaveTheirWriters := by
  intro i s t h
  have hkept := exec_keepsAllBut h
  refine ⟨fun hldI haddI hldF hblock => hkept .I fun hI => ?_, fun hDT => hkept .DT fun hmem => ?_,
    fun hST => hkept .ST fun hmem => ?_⟩
  · obtain ⟨nnn, hi⟩ | ⟨x, hi⟩ | ⟨x, hi⟩ | ⟨hinc, hi⟩ := mayWrite_I hI
    · exact hldI nnn hi
    · exact haddI x hi
    · exact hldF x hi
    · obtain ⟨hstore, hload⟩ := hblock hinc
      exact hi.elim (fun ⟨x, hx⟩ => hstore x hx) fun ⟨x, hx⟩ => hload x hx
  · obtain ⟨x, hi⟩ := mayWrite_DT hmem
    exact hDT x hi
  · obtain ⟨x, hi⟩ := mayWrite_ST hmem
    exact hST x hi

end

section
/-! PROOF. The instruction that a step runs is the one that lies at `pc`, as it was placed or as a register block stored
it (spec/20_memory.md R54, R62; spec/40_fetch_dispatch.md R104, R112), and the writers of memory, framebuffer and stack
(spec/20_memory.md R52; spec/10_state.md R30, R31). -/

namespace Sys2Proof.Machine

variable {s t : State}

/-! ### The fetch (R54) -/

/-- Inside memory the fetch is the big-endian word of the bytes that an access reads there. -/
theorem fetch_of_le (h : s.pc.toNat + 2 ≤ s.config.memSize) :
    s.fetch = some (wordOfBytes (s.memRead s.pc.toNat) (s.memRead (s.pc.toNat + 1))) :=
  fetch_eq_some s h (wordOfBytes_toNat _ _)

theorem wordOfBytes_toNat_div (hi lo : Byte) : (wordOfBytes hi lo).toNat / 256 = hi.toNat := by
  rw [wordOfBytes_toNat]
  omega

theorem wordOfBytes_toNat_mod (hi lo : Byte) : (wordOfBytes hi lo).toNat % 256 = lo.toNat := by
  rw [wordOfBytes_toNat]
  omega

/-- A step of the running core at its own turn is the instruction that the fetched word decodes to (R104, R112). -/
theorem step_eq_exec {w : Word} {i : Instr} (hrun : s.run = .running) (hmove : s.nextMove = .cycle)
    (hfetch : s.fetch = some w) (hdecode : decode w = .instr i) : step s = exec i (s.setAgenda s.agenda.tail) := by
  have hfetch' : (s.setAgenda s.agenda.tail).fetch = some w := hfetch
  rw [step_core s (by simp [hrun]) hmove]
  simp [coreTurn, cycle, hrun, hfetch', hdecode]

/-! ### A placed word (R54; notes/assumptions/10.md) -/

theorem headD_offerCycle (moves : List Move) : (offerCycle moves).headD .cycle = .cycle := by
  cases moves with
  | nil => rfl
  | cons move rest => cases move <;> rfl

/-- In a valid configuration a word can be fetched at the fetchable pc: it is `pc` where that is so, else the load offset
(R6). -/
theorem fetchablePc_le (h : s.config.Valid) : s.fetchablePc.toNat + 2 ≤ s.config.memSize := by
  unfold State.fetchablePc
  split
  case isTrue hpc => exact hpc
  case isFalse =>
    obtain ⟨-, hroom, -⟩ := h
    exact hroom

theorem Memory.read_placeWord_high (c : Config) (m : Memory) (a : Nat) (w : Word) :
    Memory.read c (Memory.placeWord c m a w) a = highByte w := by
  rw [Memory.placeWord, Memory.read_write_ne c _ _ (Nat.ne_of_lt (Nat.lt_succ_self a)), Memory.read_write_self]

theorem Memory.read_placeWord_low (c : Config) (m : Memory) (a : Nat) (w : Word) :
    Memory.read c (Memory.placeWord c m a w) (a + 1) = lowByte w := by
  rw [Memory.placeWord, Memory.read_write_self]

/-- The placed word is the word that the next cycle fetches. -/
theorem withFetchWord_fetch (nbits w : Nat) (h : s.config.Valid) :
    (s.withFetchWord nbits w).fetch = some (tableWord nbits w) := by
  have hpc : (s.withFetchWord nbits w).pc.toNat + 2 ≤ (s.withFetchWord nbits w).config.memSize := fetchablePc_le h
  rw [State.fetch, if_pos hpc]
  simp only [State.withFetchWord, Memory.read_placeWord_high, Memory.read_placeWord_low, wordOfBytes_bytes]

/-! ### A stored register block (R62, R205) -/

/-- An access depends on its address reduced mod `MEM_SIZE` only (R51). -/
theorem State.memRead_congr {a b : Nat} (h : a % s.config.memSize = b % s.config.memSize) :
    s.memRead a = s.memRead b := by
  rw [State.memRead, State.memRead, h]

@[simp] theorem State.regAt_toNat (s : State) (k : RegIdx) : s.regAt k.toNat = s.reg k := by
  simp [State.regAt]

/-- In a valid configuration a register block does not wrap onto itself: memory holds the glyph table and a word. -/
theorem block_le_memSize (h : s.config.Valid) (x : RegIdx) : x.toNat + 1 ≤ s.config.memSize := by
  obtain ⟨hfont, hroom, -⟩ := h
  unfold Config.FontBelowProgram at hfont
  unfold Config.ProgramInMemory at hroom
  omega

/-- After `LD [I], Vx` the byte of the block at `I + k` is `V[k]`, at every address that reduces to its own. -/
theorem execLdMemVx_memRead {x k : RegIdx} {a : Nat} (hvalid : s.config.Valid) (h : execLdMemVx x s = .next t)
    (hk : k.toNat ≤ x.toNat) (ha : s.effective k.toNat % s.config.memSize = a % s.config.memSize) :
    t.memRead a = s.reg k := by
  have hconfig : t.config = s.config := exec_config s (i := .ldMemVx x) h
  rw [State.memRead_congr (show a % t.config.memSize = s.effective k.toNat % t.config.memSize by rw [hconfig, ha])]
  obtain rfl := Host.Outcome.next.inj h
  rw [State.setPc_memRead, incrementI_memRead,
    storeRegs_memRead s _ _ (Nat.lt_succ_of_le hk) (block_le_memSize hvalid x), State.regAt_toNat]

/-! ### The writers of memory, framebuffer, stack and keys (R52, R30, R31) -/

section
variable {i : Instr} {c : Config}

theorem mayWrite_mem (h : .mem ∈ mayWrite c i) : (∃ x, i = .ldB x) ∨ ∃ x, i = .ldMemVx x := by
  cases i <;> simp_all [mayWrite]

theorem mayWrite_fb (h : .fb ∈ mayWrite c i) : i = .cls ∨ ∃ x y n, i = .drw x y n := by
  cases i <;> simp_all [mayWrite]

theorem mayWrite_stack (h : .stack ∈ mayWrite c i) : (∃ nnn, i = .call nnn) ∨ i = .ret := by
  cases i <;> simp_all [mayWrite]

theorem keys_notMem_mayWrite (c : Config) (i : Instr) : .keys ∉ mayWrite c i := by
  cases i <;> simp [mayWrite]

end

end Sys2Proof.Machine

open Sys2Proof Sys2Proof.Machine

/-- Settles O11: the placed word is what the next step fetches, and the next move is the core's. -/
theorem placedWordRunsNext : Obligations.PlacedWordRunsNext := by
  intro s w i hvalid hword
  exact step_eq_exec rfl (headD_offerCycle s.agenda) (withFetchWord_fetch 16 w hvalid) (decodeTableWord_eq_some.1 hword)

/-- Settles O48: the fetched bytes are those an access reads at `pc` and `pc + 1`, and the block has been stored there. -/
theorem storedBytesAreFetched : Obligations.StoredBytesAreFetched := by
  intro x s t k hvalid hexec hk hpc
  have hconfig := exec_config s hexec
  have hstored {a : Nat} (ha : a < s.config.memSize) (heq : s.effective k.toNat % s.config.memSize = a) :
      t.memRead a = s.reg k :=
    execLdMemVx_memRead hvalid hexec hk (heq.trans (Nat.mod_eq_of_lt ha).symm)
  refine ⟨_, fetch_of_le (by rwa [hconfig]), fun hhigh => ?_, fun hlow => ?_⟩
  · rw [wordOfBytes_toNat_div, hstored (by omega) hhigh]
  · rw [wordOfBytes_toNat_mod, hstored (by omega) hlow]

/-- Settles O58: an instruction changes only the parts it may write, and these four have the writers that the spec
lists, the keys none. -/
theorem spacesChangeOnlyByTheirInstructions : Obligations.SpacesChangeOnlyByTheirInstructions := by
  intro i s t h
  have hkept := exec_keepsAllBut h
  refine ⟨fun hldB hstore => hkept .mem fun hmem => ?_, fun hcls hdrw => hkept .fb fun hfb => ?_,
    fun hcall hret => hkept .stack fun hstack => ?_, hkept .keys (keys_notMem_mayWrite s.config i)⟩
  · obtain ⟨x, hi⟩ | ⟨x, hi⟩ := mayWrite_mem hmem
    · exact hldB x hi
    · exact hstore x hi
  · obtain hi | ⟨x, y, n, hi⟩ := mayWrite_fb hfb
    · exact hcls hi
    · exact hdrw x y n hi
  · obtain ⟨nnn, hi⟩ | hi := mayWrite_stack hstack
    · exact hcall nnn hi
    · exact hret hi

/-- Settles O7: the big-endian word at `pc` is the word fetched, and the step runs what it decodes to. -/
theorem stepRunsTheDecodedInstruction : Obligations.StepRunsTheDecodedInstruction := by
  intro s w i hrun hmove hpc hword hdecode _
  exact step_eq_exec hrun hmove (fetch_eq_some s hpc hword) hdecode

end

section
/-! PROOF. The decoder and the encoder are inverse to each other, and the decoder accepts the words of the opcode map
(spec/30_encoding.md R75 to R82). -/

namespace Sys2Proof

open Laws

variable {w : Word} {i : Instr}

/-! ### The decoder reads what the encoder writes (R76, R80) -/

@[simp] theorem decode_encode (i : Instr) : decode (encode i) = .instr i := by
  cases i
  case cls | ret => rfl
  case jp | call | seImm | sneImm | seReg | ldImm | addImm | sneReg | ldI | jpV0 | rnd | drw => simp [encode, decode]
  case ldReg | orReg | andReg | xorReg | addReg | sub | shr | subn | shl => simp [encode, decode, decodeFamily8]
  case skp | sknp => simp [encode, decode, decodeFamilyE]
  case ldVxDt | ldVxK | ldDtVx | ldStVx | addI | ldF | ldB | ldMemVx | ldVxMem =>
    simp [encode, decode, decodeFamilyF]

/-! ### The encoder writes what the decoder read (R71, R76) -/

theorem nnn_eq_word {f : Nibble} (hF : fieldF w = f) : f ++ fieldNNN w = w := by
  rw [← hF, word_eq_nnn]

theorem xnn_eq_word {f : Nibble} (hF : fieldF w = f) : f ++ fieldX w ++ fieldNN w = w := by
  rw [← hF, word_eq_xnn]

theorem xyn_eq_word {f : Nibble} (hF : fieldF w = f) : f ++ fieldX w ++ fieldY w ++ fieldN w = w := by
  rw [← hF, word_eq_xyn]

theorem xy_eq_word {f n : Nibble} (hF : fieldF w = f) (hN : fieldN w = n) :
    f ++ fieldX w ++ fieldY w ++ n = w := by
  rw [← hN, xyn_eq_word hF]

theorem x_eq_word {f : Nibble} {nn : Byte} (hF : fieldF w = f) (hNN : fieldNN w = nn) :
    f ++ fieldX w ++ nn = w := by
  rw [← hNN, xnn_eq_word hF]

theorem encode_of_decodeFamily8 (hF : fieldF w = 0x8) (h : decodeFamily8 w = .instr i) : encode i = w := by
  unfold decodeFamily8 at h
  split_ifs at h with hN hN hN hN hN hN hN hN hN <;> obtain rfl := Decoded.instr.inj h <;> exact xy_eq_word hF hN

theorem encode_of_decodeFamilyE (hF : fieldF w = 0xE) (h : decodeFamilyE w = .instr i) : encode i = w := by
  unfold decodeFamilyE at h
  split_ifs at h with hNN hNN <;> obtain rfl := Decoded.instr.inj h <;> exact x_eq_word hF hNN

theorem encode_of_decodeFamilyF (hF : fieldF w = 0xF) (h : decodeFamilyF w = .instr i) : encode i = w := by
  unfold decodeFamilyF at h
  split_ifs at h with hNN hNN hNN hNN hNN hNN hNN hNN hNN <;> obtain rfl := Decoded.instr.inj h <;>
    exact x_eq_word hF hNN

theorem encode_of_decode (h : decode w = .instr i) : encode i = w := by
  rcases nibble_cases (fieldF w) with hF | hF | hF | hF | hF | hF | hF | hF | hF | hF | hF | hF | hF | hF | hF | hF <;>
    simp only [decode, hF, BitVec.ofNat_eq_ofNat, BitVec.reduceEq, ↓reduceIte, Decoded.instr.injEq] at h
  · split_ifs at h with hw hw <;> exact Decoded.instr.inj h ▸ hw.symm
  · exact h ▸ nnn_eq_word hF
  · exact h ▸ nnn_eq_word hF
  · exact h ▸ xnn_eq_word hF
  · exact h ▸ xnn_eq_word hF
  · split_ifs at h with hN
    exact Decoded.instr.inj h ▸ xy_eq_word hF hN
  · exact h ▸ xnn_eq_word hF
  · exact h ▸ xnn_eq_word hF
  · exact encode_of_decodeFamily8 hF h
  · split_ifs at h with hN
    exact Decoded.instr.inj h ▸ xy_eq_word hF hN
  · exact h ▸ nnn_eq_word hF
  · exact h ▸ nnn_eq_word hF
  · exact h ▸ xnn_eq_word hF
  · exact h ▸ xyn_eq_word hF
  · exact encode_of_decodeFamilyE hF h
  · exact encode_of_decodeFamilyF hF h

/-! ### The rows of the opcode map (R78, R80) -/

/-- The word of every instruction selects the instruction's own row. -/
theorem encode_selects_own_row : ∀ i : Instr, EncodesInRow.Statement i
  | .cls => EncodesInRow.cls
  | .ret => EncodesInRow.ret
  | .jp nnn => EncodesInRow.jp nnn
  | .call nnn => EncodesInRow.call nnn
  | .seImm x nn => EncodesInRow.seImm x nn
  | .sneImm x nn => EncodesInRow.sneImm x nn
  | .seReg x y => EncodesInRow.seReg x y
  | .ldImm x nn => EncodesInRow.ldImm x nn
  | .addImm x nn => EncodesInRow.addImm x nn
  | .ldReg x y => EncodesInRow.ldReg x y
  | .orReg x y => EncodesInRow.orReg x y
  | .andReg x y => EncodesInRow.andReg x y
  | .xorReg x y => EncodesInRow.xorReg x y
  | .addReg x y => EncodesInRow.addReg x y
  | .sub x y => EncodesInRow.sub x y
  | .shr x y => EncodesInRow.shr x y
  | .subn x y => EncodesInRow.subn x y
  | .shl x y => EncodesInRow.shl x y
  | .sneReg x y => EncodesInRow.sneReg x y
  | .ldI nnn => EncodesInRow.ldI nnn
  | .jpV0 nnn => EncodesInRow.jpV0 nnn
  | .rnd x nn => EncodesInRow.rnd x nn
  | .drw x y n => EncodesInRow.drw x y n
  | .skp x => EncodesInRow.skp x
  | .sknp x => EncodesInRow.sknp x
  | .ldVxDt x => EncodesInRow.ldVxDt x
  | .ldVxK x => EncodesInRow.ldVxK x
  | .ldDtVx x => EncodesInRow.ldDtVx x
  | .ldStVx x => EncodesInRow.ldStVx x
  | .addI x => EncodesInRow.addI x
  | .ldF x => EncodesInRow.ldF x
  | .ldB x => EncodesInRow.ldB x
  | .ldMemVx x => EncodesInRow.ldMemVx x
  | .ldVxMem x => EncodesInRow.ldVxMem x

/-- A decoded word selects the row of its instruction. -/
theorem decode_selects_own_row (h : decode w = .instr i) :
    ∃ row, opcodeTable[i.rowIndex]? = some row ∧ row.Selects w :=
  encode_of_decode h ▸ encode_selects_own_row i

/-! ### A word from the row it selects, by the mask of its format (R74, R78) -/

section
variable {f n : Nibble} {nn : Byte}

theorem eq_of_mask_FFFF {p : Word} (h : w &&& 0xFFFF = p) : p = w :=
  h.symm.trans BitVec.and_allOnes

theorem fieldF_of_mask_F000 (h : w &&& 0xF000 = (f ++ 0x000#12 : Word)) : fieldF w = f := by
  rw [← word_eq_nnn w, EncodesInRow.mask_nnn] at h
  simpa using congrArg fieldF h

theorem nnn_of_mask (h : w &&& 0xF000 = (f ++ 0x000#12 : Word)) : f ++ fieldNNN w = w :=
  nnn_eq_word (fieldF_of_mask_F000 h)

theorem xnn_of_mask (h : w &&& 0xF000 = (f ++ 0x000#12 : Word)) : f ++ fieldX w ++ fieldNN w = w :=
  xnn_eq_word (fieldF_of_mask_F000 h)

theorem xyn_of_mask (h : w &&& 0xF000 = (f ++ 0x000#12 : Word)) :
    f ++ fieldX w ++ fieldY w ++ fieldN w = w :=
  xyn_eq_word (fieldF_of_mask_F000 h)

theorem xy_of_mask (h : w &&& 0xF00F = (f ++ 0x0#4 ++ 0x0#4 ++ n : Word)) :
    f ++ fieldX w ++ fieldY w ++ n = w := by
  rw [← word_eq_xyn w, EncodesInRow.mask_xy] at h
  exact xy_eq_word (by simpa using congrArg fieldF h) (by simpa using congrArg fieldN h)

theorem x_of_mask (h : w &&& 0xF0FF = (f ++ 0x0#4 ++ nn : Word)) : f ++ fieldX w ++ nn = w := by
  rw [← word_eq_xnn w, EncodesInRow.mask_x] at h
  exact x_eq_word (by simpa using congrArg fieldF h) (by simpa using congrArg fieldNN h)

end

theorem encoded_of_selects_rows1to9 : ∀ row ∈ opcodeRows1to9, row.Selects w → ∃ i, encode i = w := by
  simp only [opcodeRows1to9, List.forall_mem_cons]
  exact ⟨
    fun h => ⟨.cls, eq_of_mask_FFFF h⟩,
    fun h => ⟨.ret, eq_of_mask_FFFF h⟩,
    fun h => ⟨.jp _, nnn_of_mask h⟩,
    fun h => ⟨.call _, nnn_of_mask h⟩,
    fun h => ⟨.seImm _ _, xnn_of_mask h⟩,
    fun h => ⟨.sneImm _ _, xnn_of_mask h⟩,
    fun h => ⟨.seReg _ _, xy_of_mask h⟩,
    fun h => ⟨.ldImm _ _, xnn_of_mask h⟩,
    fun h => ⟨.addImm _ _, xnn_of_mask h⟩,
    List.forall_mem_nil _⟩

theorem encoded_of_selects_rows10to19 : ∀ row ∈ opcodeRows10to19, row.Selects w → ∃ i, encode i = w := by
  simp only [opcodeRows10to19, List.forall_mem_cons]
  exact ⟨
    fun h => ⟨.ldReg _ _, xy_of_mask h⟩,
    fun h => ⟨.orReg _ _, xy_of_mask h⟩,
    fun h => ⟨.andReg _ _, xy_of_mask h⟩,
    fun h => ⟨.xorReg _ _, xy_of_mask h⟩,
    fun h => ⟨.addReg _ _, xy_of_mask h⟩,
    fun h => ⟨.sub _ _, xy_of_mask h⟩,
    fun h => ⟨.shr _ _, xy_of_mask h⟩,
    fun h => ⟨.subn _ _, xy_of_mask h⟩,
    fun h => ⟨.shl _ _, xy_of_mask h⟩,
    fun h => ⟨.sneReg _ _, xy_of_mask h⟩,
    List.forall_mem_nil _⟩

theorem encoded_of_selects_rows20to34 : ∀ row ∈ opcodeRows20to34, row.Selects w → ∃ i, encode i = w := by
  simp only [opcodeRows20to34, List.forall_mem_cons]
  exact ⟨
    fun h => ⟨.ldI _, nnn_of_mask h⟩,
    fun h => ⟨.jpV0 _, nnn_of_mask h⟩,
    fun h => ⟨.rnd _ _, xnn_of_mask h⟩,
    fun h => ⟨.drw _ _ _, xyn_of_mask h⟩,
    fun h => ⟨.skp _, x_of_mask h⟩,
    fun h => ⟨.sknp _, x_of_mask h⟩,
    fun h => ⟨.ldVxDt _, x_of_mask h⟩,
    fun h => ⟨.ldVxK _, x_of_mask h⟩,
    fun h => ⟨.ldDtVx _, x_of_mask h⟩,
    fun h => ⟨.ldStVx _, x_of_mask h⟩,
    fun h => ⟨.addI _, x_of_mask h⟩,
    fun h => ⟨.ldF _, x_of_mask h⟩,
    fun h => ⟨.ldB _, x_of_mask h⟩,
    fun h => ⟨.ldMemVx _, x_of_mask h⟩,
    fun h => ⟨.ldVxMem _, x_of_mask h⟩,
    List.forall_mem_nil _⟩

/-- Every word that selects a row of the opcode map is the word of an instruction. -/
theorem encoded_of_selects {row : OpcodeRow} (hrow : row ∈ opcodeTable) (h : row.Selects w) :
    ∃ i, encode i = w := by
  obtain hrow | hrow := List.mem_append.1 hrow
  · obtain hrow | hrow := List.mem_append.1 hrow
    · exact encoded_of_selects_rows1to9 row hrow h
    · exact encoded_of_selects_rows10to19 row hrow h
  · exact encoded_of_selects_rows20to34 row hrow h

theorem decode_eq_instr_iff_selects : (∃ i, decode w = .instr i) ↔ ∃ row ∈ opcodeTable, row.Selects w := by
  constructor
  · rintro ⟨i, h⟩
    obtain ⟨row, hrow, hselects⟩ := decode_selects_own_row h
    exact ⟨row, List.mem_of_getElem? hrow, hselects⟩
  · rintro ⟨row, hrow, hselects⟩
    obtain ⟨i, rfl⟩ := encoded_of_selects hrow hselects
    exact ⟨i, decode_encode i⟩

/-! ### No word selects two rows (R78) -/

/-- Two rows differ on a bit that both masks read. -/
def OpcodeRow.Apart (a b : OpcodeRow) : Prop := a.pattern &&& b.mask ≠ b.pattern &&& a.mask

theorem OpcodeRow.Apart.symm {a b : OpcodeRow} (h : a.Apart b) : b.Apart a := Ne.symm h

/-- Rows that a word selects agree on every bit that both masks read: it is the word's bit. -/
theorem OpcodeRow.not_apart_of_selects {a b : OpcodeRow} (ha : a.Selects w) (hb : b.Selects w) : ¬ a.Apart b := by
  refine not_not_intro ?_
  rw [← ha, ← hb, BitVec.and_assoc, BitVec.and_comm a.mask, ← BitVec.and_assoc]

theorem opcodeTable_pairwise_apart : opcodeTable.Pairwise OpcodeRow.Apart := by
  unfold OpcodeRow.Apart
  decide

theorem opcodeTable_eq_of_selects {a b : OpcodeRow} (ha : a ∈ opcodeTable) (hb : b ∈ opcodeTable)
    (hwa : a.Selects w) (hwb : b.Selects w) : a = b := by
  have : Std.Symm OpcodeRow.Apart := ⟨fun _ _ => OpcodeRow.Apart.symm⟩
  by_contra hne
  exact OpcodeRow.not_apart_of_selects hwa hwb (opcodeTable_pairwise_apart.forall ha hb hne)

end Sys2Proof

open Sys2Proof

/-- Settles O1, by the format of each instruction. -/
theorem decodeOfEncode : Obligations.DecodeOfEncode := decode_encode

/-- Settles O2, by the family of the word. -/
theorem encodeOfDecode : Obligations.EncodeOfDecode := fun _ _ => encode_of_decode

/-- Settles O3: a decoded word selects the row of its instruction, a word that selects a row is the word of an
instruction, and a rejection carries the word. -/
theorem decodeAcceptsExactlyTheOpcodeMap : Obligations.DecodeAcceptsExactlyTheOpcodeMap := by
  refine fun w => ⟨decode_eq_instr_iff_selects, fun hnone => ?_⟩
  cases hdecode : decode w with
  | instr i =>
    obtain ⟨row, hrow, hselects⟩ := decode_eq_instr_iff_selects.1 ⟨i, hdecode⟩
    exact absurd hselects (hnone row hrow)
  | unknownOpcode opcode => rw [decode_unknown hdecode]

/-- Settles O4: any two rows of the map differ on a bit that both masks read. -/
theorem opcodeRowsHaveNoCommonWord : Obligations.OpcodeRowsHaveNoCommonWord :=
  fun _ _ ha _ hb => opcodeTable_eq_of_selects ha hb

/-- Settles O5: the word is that of its instruction, which lies in the instruction's row. -/
theorem decodedWordSelectsItsRow : Obligations.DecodedWordSelectsItsRow := fun _ _ => decode_selects_own_row

/-- Settles O6, by evaluating the decoder on the ten words. -/
theorem sampleWordsDecode : Obligations.SampleWordsDecode := by
  unfold Obligations.SampleWordsDecode
  decide

end

section
/-! PROOF. The writers of the run state (spec/40_fetch_dispatch.md R107 to R110; spec/60_exceptions.md R268, R269). -/

namespace Sys2Proof.Machine

variable {s t : State}

theorem mayWrite_run {c : Config} {i : Instr} (h : .run ∈ mayWrite c i) :
    (∃ x, i = .ldVxK x) ∨ (∃ nnn, i = .call nnn) ∨ i = .ret := by
  cases i <;> simp_all [mayWrite]

theorem execLdVxK_run {x : RegIdx} (h : execLdVxK x s = .next t) : t.run = .waitingForKey x := by
  obtain rfl := Host.Outcome.next.inj h
  rfl

theorem execCall_run {nnn : Addr12} (h : execCall nnn s = .next t) :
    t.run = s.run ∨ (s.stack.length = s.config.stackDepth ∧ t.run = .halted .stackOverflow) := by
  obtain ⟨hfull, rfl⟩ | ⟨-, rfl⟩ := execCall_cases h
  · exact .inr ⟨hfull, rfl⟩
  · exact .inl rfl

theorem execRet_run (h : execRet s = .next t) :
    t.run = s.run ∨ (s.stack = [] ∧ t.run = .halted .stackUnderflow) := by
  obtain ⟨hempty, rfl⟩ | ⟨top, rest, -, rfl⟩ := execRet_cases h
  · exact .inr ⟨hempty, rfl⟩
  · exact .inl rfl

end Sys2Proof.Machine

open Sys2Proof Sys2Proof.Machine

/-- Settles O60: an instruction changes only the parts it may write, and the run state has three writers, of which two
write it only when the stack fails. -/
theorem runStateChangesOnlyByWaitOrStackFailure : Obligations.RunStateChangesOnlyByWaitOrStackFailure := by
  intro i s t h
  by_cases hrun : .run ∈ mayWrite s.config i
  · obtain ⟨x, rfl⟩ | ⟨nnn, rfl⟩ | rfl := mayWrite_run hrun
    · exact .inr (.inl ⟨x, rfl, execLdVxK_run h⟩)
    · exact (execCall_run h).imp_right fun hfull => .inr (.inl ⟨nnn, rfl, hfull⟩)
    · exact (execRet_run h).imp_right fun hempty => .inr (.inr ⟨rfl, hempty⟩)
  · exact .inl (exec_keepsAllBut h .run hrun)

end

section
/-! PROOF. Moves, arithmetic, logic and shifts (spec/41_alu.md R131 to R145): what an instruction does that writes one
register, or one register and then its flag, and the bytes that it writes. -/

namespace Sys2Proof.Machine

variable {s : State} {i : Instr} {x y : RegIdx} {v f : Byte}

/-! ### One register, or one register and then the flag, with the advance of `pc` (R107, R133) -/

/-- An instruction that only writes `v` to `V[x]` before `pc` advances. -/
theorem exec_writes_reg (h : exec i s = .next ((s.setReg x v).setPc s.nextPc)) :
    ∃ t, exec i s = .next t ∧ t.reg x = v ∧ t.pc.toNat = (s.pc.toNat + 2) % 2 ^ 16 ∧
      RegsKeptBut [x] s t ∧ KeepsAllBut [.V, .pc] s t := by
  refine ⟨_, h, State.setReg_reg_self s x v, nextPc_toNat s, fun r hr => ?_, ?_⟩
  · exact State.setReg_reg_ne s v (List.ne_of_not_mem_cons hr)
  · exact ((KeepsAllBut.refl _ s).setReg x v).setPc _

/-- An instruction that writes `v` to `V[x]` and then `f` to `VF` before `pc` advances: the result is what `V[x]` holds
unless `x` is 15. -/
theorem exec_writes_reg_then_flag (h : exec i s = .next ((s.setRegThenFlag x v f).setPc s.nextPc)) :
    ∃ t, exec i s = .next t ∧ (x ≠ vf → t.reg x = v) ∧ t.reg vf = f ∧ t.pc.toNat = (s.pc.toNat + 2) % 2 ^ 16 ∧
      RegsKeptBut [x, vf] s t ∧ KeepsAllBut [.V, .pc] s t := by
  refine ⟨_, h, State.setRegThenFlag_reg_self s v f, State.setRegThenFlag_reg_vf s x v f, nextPc_toNat s,
    fun r hr => ?_, ?_⟩
  · have hx : r ≠ x := List.ne_of_not_mem_cons hr
    have hvf : r ≠ vf := List.ne_of_not_mem_cons (List.not_mem_of_not_mem_cons hr)
    rw [State.setPc_reg, State.setRegThenFlag_reg, if_neg hvf, if_neg hx]
  · exact ((KeepsAllBut.refl _ s).setRegThenFlag x v f).setPc _

/-! ### The two forms of `ADD Vx, NN` (R136) -/

theorem exec_addImm_unchanged (x : RegIdx) (nn : Byte) (hflag : s.config.addImmFlag = .unchanged) :
    exec (.addImm x nn) s = .next ((s.setReg x (s.reg x + nn)).setPc s.nextPc) := by
  rw [exec, execAddImm, hflag, complete_advance]

theorem exec_addImm_carry (x : RegIdx) (nn : Byte) (hflag : s.config.addImmFlag = .carry) :
    exec (.addImm x nn) s =
      .next ((s.setRegThenFlag x (s.reg x + nn) (carryFlag (s.reg x) nn)).setPc s.nextPc) := by
  rw [exec, execAddImm, hflag, complete_advance]

/-! ### The difference and the shift source (R142 to R145) -/

/-- The difference of two bytes wraps as the difference of integers does modulo 256 (R142). -/
theorem byte_sub_toNat (a b : Byte) : ((a - b).toNat : Int) = (a.toNat - b.toNat : Int) % 2 ^ 8 := by
  rw [BitVec.toNat_sub]
  omega

/-- The source of a shift is the byte that `SHIFT_QUIRK` names. -/
theorem shiftSource_eq (hlegacy : s.config.shiftQuirk = .legacy → v = s.reg y)
    (hinPlace : s.config.shiftQuirk = .inPlace → v = s.reg x) : s.shiftSource x y = v := by
  unfold State.shiftSource
  split
  case h_1 hquirk => exact (hlegacy hquirk).symm
  case h_2 hquirk => exact (hinPlace hquirk).symm

end Sys2Proof.Machine

open Sys2Proof Sys2Proof.Machine

/-- Settles O26, by the two values of `ADD_IMM_FLAG`: under each the instruction has one form, and the claim about the
other value does not apply. -/
theorem addImmediateWrapsAndFlagsByParameter : Obligations.AddImmediateWrapsAndFlagsByParameter := by
  intro x nn s
  refine ⟨decode_encode (.addImm x nn), ?_⟩
  cases hflag : s.config.addImmFlag with
  | unchanged =>
    obtain ⟨t, ht, hx, hpc, hregs, hkept⟩ := exec_writes_reg (exec_addImm_unchanged x nn hflag)
    exact ⟨t, ht, hpc, hkept, fun _ => ⟨by rw [hx, BitVec.toNat_add], hregs⟩, nofun⟩
  | carry =>
    obtain ⟨t, ht, hx, hvf, hpc, hregs, hkept⟩ := exec_writes_reg_then_flag (exec_addImm_carry x nn hflag)
    have hsum (hne : x ≠ vf) : (t.reg x).toNat = ((s.reg x).toNat + nn.toNat) % 2 ^ 8 := by
      rw [hx hne, BitVec.toNat_add]
    exact ⟨t, ht, hpc, hkept, nofun, fun _ => ⟨hsum, hvf.trans (carryFlag_eq _ _), hregs⟩⟩

/-- Settles O25: the instruction writes its immediate and nothing else. -/
theorem loadImmediateWritesItsRegister : Obligations.LoadImmediateWritesItsRegister :=
  fun x nn _ => ⟨decode_encode (.ldImm x nn), exec_writes_reg rfl⟩

/-- Settles O27: the instruction writes the value of `Vy` and nothing else. -/
theorem loadRegisterCopies : Obligations.LoadRegisterCopies :=
  fun x y _ => ⟨decode_encode (.ldReg x y), exec_writes_reg rfl⟩

/-- Settles O28: each instruction writes its bitwise result and nothing else, and a bit of that result is the operation
on the bits. -/
theorem logicActsOnEveryBit : Obligations.LogicActsOnEveryBit := by
  intro x y s
  refine ⟨decode_encode (.orReg x y), decode_encode (.andReg x y), decode_encode (.xorReg x y), ?or, ?and, ?xor⟩
  case or =>
    obtain ⟨t, ht, hx, hrest⟩ := exec_writes_reg (i := .orReg x y) (s := s) rfl
    exact ⟨t, ht, fun _ => by rw [hx, BitVec.getLsbD_or], hrest⟩
  case and =>
    obtain ⟨t, ht, hx, hrest⟩ := exec_writes_reg (i := .andReg x y) (s := s) rfl
    exact ⟨t, ht, fun _ => by rw [hx, BitVec.getLsbD_and], hrest⟩
  case xor =>
    obtain ⟨t, ht, hx, hrest⟩ := exec_writes_reg (i := .xorReg x y) (s := s) rfl
    exact ⟨t, ht, fun _ => by rw [hx, BitVec.getLsbD_xor], hrest⟩

/-- Settles O29: the sum modulo 256, and the carry after it. -/
theorem addWrapsAndSetsTheCarry : Obligations.AddWrapsAndSetsTheCarry := by
  intro x y s
  obtain ⟨t, ht, hx, hvf, hrest⟩ := exec_writes_reg_then_flag (i := .addReg x y) (s := s) rfl
  refine ⟨decode_encode (.addReg x y), t, ht, fun hne => ?_, hvf.trans (carryFlag_eq _ _), hrest⟩
  rw [hx hne, BitVec.toNat_add]

/-- Settles O30: the difference modulo 256, and the not-borrow after it. -/
theorem subtractWrapsAndSetsNotBorrow : Obligations.SubtractWrapsAndSetsNotBorrow := by
  intro x y s
  obtain ⟨t, ht, hx, hvf, hrest⟩ := exec_writes_reg_then_flag (i := .sub x y) (s := s) rfl
  refine ⟨decode_encode (.sub x y), t, ht, fun hne => ?_, hvf.trans (notBorrowFlag_eq _ _), hrest⟩
  rw [hx hne, byte_sub_toNat]

/-- Settles O31: as O30, with the operands the other way round. -/
theorem reverseSubtractWrapsAndSetsNotBorrow : Obligations.ReverseSubtractWrapsAndSetsNotBorrow := by
  intro x y s
  obtain ⟨t, ht, hx, hvf, hrest⟩ := exec_writes_reg_then_flag (i := .subn x y) (s := s) rfl
  refine ⟨decode_encode (.subn x y), t, ht, fun hne => ?_, hvf.trans (notBorrowFlag_eq _ _), hrest⟩
  rw [hx hne, byte_sub_toNat]

/-- Settles O32: the source that `SHIFT_QUIRK` names is halved, and its bit 0 is the flag. -/
theorem shiftRightHalvesItsSource : Obligations.ShiftRightHalvesItsSource := by
  intro x y s src hlegacy hinPlace
  obtain rfl := shiftSource_eq hlegacy hinPlace
  obtain ⟨t, ht, hx, hvf, hrest⟩ := exec_writes_reg_then_flag (i := .shr x y) (s := s) rfl
  refine ⟨decode_encode (.shr x y), t, ht, fun hne => ?_, ?_, hrest⟩
  · rw [hx hne, BitVec.toNat_ushiftRight, Nat.shiftRight_eq_div_pow, pow_one]
  · rw [hvf, shiftedOutRight_toNat]

/-- Settles O33: the source that `SHIFT_QUIRK` names is doubled modulo 256, and its bit 7 is the flag. -/
theorem shiftLeftDoublesItsSource : Obligations.ShiftLeftDoublesItsSource := by
  intro x y s src hlegacy hinPlace
  obtain rfl := shiftSource_eq hlegacy hinPlace
  obtain ⟨t, ht, hx, hvf, hrest⟩ := exec_writes_reg_then_flag (i := .shl x y) (s := s) rfl
  refine ⟨decode_encode (.shl x y), t, ht, fun hne => ?_, ?_, hrest⟩
  · rw [hx hne, BitVec.toNat_shiftLeft, Nat.shiftLeft_eq, pow_one, Nat.mul_comm]
  · rw [hvf, shiftedOutLeft_toNat]

end

section
/-! PROOF. Control transfer and conditional skips (spec/42_branch.md R170 to R180): what an instruction does that writes
`pc` alone, that halts, or that moves the stack. -/

namespace Sys2Proof.Machine

variable {s : State} {i : Instr}

/-! ### `pc` alone (R174, R176) -/

/-- An instruction that only writes `a` to `pc`. -/
theorem exec_writes_pc {a : Word} (h : exec i s = .next (s.setPc a)) :
    ∃ t, exec i s = .next t ∧ t.pc = a ∧ KeepsAllBut [.pc] s t :=
  ⟨_, h, rfl, (KeepsAllBut.refl _ s).setPc a⟩

/-! ### The skips (R171, R177 to R180) -/

/-- An instruction that is a skip goes one word further when its condition holds. -/
theorem exec_skips {c : Bool} (h : exec i s = complete s (skipIf c s)) :
    ∃ t, exec i s = .next t ∧ t.pc.toNat = (s.pc.toNat + if c then 4 else 2) % 2 ^ 16 ∧ KeepsAllBut [.pc] s t := by
  rw [complete_skipIf] at h
  obtain ⟨t, ht, hpc, hkept⟩ := exec_writes_pc h
  refine ⟨t, ht, ?_, hkept⟩
  rw [hpc]
  cases c
  · exact nextPc_toNat s
  · exact skipPc_toNat s

/-- A skip on the equality of two bytes, by their values. -/
theorem exec_skips_of_eq {a b : Byte} (h : exec i s = complete s (skipIf (decide (a = b)) s)) :
    ∃ t, exec i s = .next t ∧ t.pc.toNat = (s.pc.toNat + if a.toNat = b.toNat then 4 else 2) % 2 ^ 16 ∧
      KeepsAllBut [.pc] s t := by
  simpa only [decide_eq_true_eq, ← BitVec.toNat_inj] using exec_skips h

/-- A skip on the inequality of two bytes, by their values. -/
theorem exec_skips_of_ne {a b : Byte} (h : exec i s = complete s (skipIf (decide (a ≠ b)) s)) :
    ∃ t, exec i s = .next t ∧ t.pc.toNat = (s.pc.toNat + if a.toNat = b.toNat then 2 else 4) % 2 ^ 16 ∧
      KeepsAllBut [.pc] s t := by
  simpa only [decide_eq_true_eq, ne_eq, ite_not, ← BitVec.toNat_inj] using exec_skips h

/-! ### Halts and the stack (R110, R173, R175) -/

/-- An instruction that halts changes nothing but the run state. -/
theorem exec_halts {reason : HaltReason} (h : exec i s = .next (s.haltWith reason)) :
    ∃ t, exec i s = .next t ∧ t.run = .halted reason ∧ KeepsAllBut [.run] s t :=
  ⟨_, h, rfl, (KeepsAllBut.refl _ s).haltWith reason⟩

/-- An instruction that only writes the stack and `pc`. -/
theorem exec_writes_stack_and_pc {entries : List Word} {a : Word}
    (h : exec i s = .next ((s.setStack entries).setPc a)) :
    ∃ t, exec i s = .next t ∧ t.pc = a ∧ t.stack = entries ∧ KeepsAllBut [.pc, .stack] s t :=
  ⟨_, h, rfl, rfl, ((KeepsAllBut.refl _ s).setStack entries).setPc a⟩

theorem exec_ret_empty (hempty : s.stack = []) : exec .ret s = .next (s.haltWith .stackUnderflow) := by
  rw [exec, execRet, pop_empty s hempty, complete_halt]

theorem exec_ret_cons {top : Word} {rest : List Word} (hstack : s.stack = top :: rest) :
    exec .ret s = .next ((s.setStack rest).setPc top) := by
  rw [exec, execRet, pop_cons s hstack, complete_done]

end Sys2Proof.Machine

open Sys2Proof Sys2Proof.Machine

/-- Settles O34, by the two cases of the pop: an entry is moved to `pc`, an empty stack halts. -/
theorem returnPopsItsAddress : Obligations.ReturnPopsItsAddress :=
  fun _ => ⟨decode_encode .ret,
    fun _ _ hstack => exec_writes_stack_and_pc (exec_ret_cons hstack),
    fun hempty => exec_halts (exec_ret_empty hempty)⟩

/-- Settles O35: the instruction writes its zero-extended address to `pc` and nothing else. -/
theorem jumpGoesToItsAddress : Obligations.JumpGoesToItsAddress := by
  intro nnn s
  obtain ⟨t, ht, hpc, hkept⟩ := exec_writes_pc (i := .jp nnn) (s := s) rfl
  exact ⟨decode_encode (.jp nnn), t, ht, hpc ▸ absoluteAddress_toNat nnn, hkept⟩

/-- Settles O36, by the two cases of the push: `pc + 2` is pushed, a full stack halts. -/
theorem callPushesTheNextAddress : Obligations.CallPushesTheNextAddress := by
  intro nnn s
  refine ⟨decode_encode (.call nnn), fun hfree => ?_, fun hfull => exec_halts (execCall_full nnn hfull)⟩
  obtain ⟨t, ht, hpc, hstack, hkept⟩ := exec_writes_stack_and_pc (i := .call nnn) (execCall_free nnn hfree)
  exact ⟨t, ht, hpc ▸ absoluteAddress_toNat nnn, ⟨s.nextPc, nextPc_toNat s, hstack⟩, hkept⟩

/-- Settles O37: the instruction writes to `pc` the sum of two zero-extended values, which is a sum modulo 2^16. -/
theorem jumpWithOffsetAddsV0 : Obligations.JumpWithOffsetAddsV0 := by
  intro nnn s
  obtain ⟨t, ht, hpc, hkept⟩ := exec_writes_pc (i := .jpV0 nnn) (s := s) rfl
  refine ⟨decode_encode (.jpV0 nnn), t, ht, ?_, hkept⟩
  rw [hpc, BitVec.toNat_add, absoluteAddress_toNat, BitVec.toNat_setWidth_of_le (by decide)]

/-- Settles O38: each instruction is a skip on its comparison of `Vx` with the immediate. -/
theorem skipOnImmediate : Obligations.SkipOnImmediate :=
  fun x nn _ => ⟨decode_encode (.seImm x nn), decode_encode (.sneImm x nn), exec_skips_of_eq rfl, exec_skips_of_ne rfl⟩

/-- Settles O39: each instruction is a skip on its comparison of `Vx` with `Vy`. -/
theorem skipOnRegister : Obligations.SkipOnRegister :=
  fun x y _ => ⟨decode_encode (.seReg x y), decode_encode (.sneReg x y), exec_skips_of_eq rfl, exec_skips_of_ne rfl⟩

/-- Settles O40: the entry that `CALL` pushed is the one that `RET` pops, and it is the address after the `CALL`. -/
theorem returnUndoesCall : Obligations.ReturnUndoesCall := by
  intro nnn s t u hfree hcall hstack
  obtain rfl := Host.Outcome.next.inj ((execCall_free nnn hfree).symm.trans hcall)
  obtain ⟨v, hv, hpc, hrest, -⟩ := exec_writes_stack_and_pc (exec_ret_cons hstack)
  exact ⟨v, hv, hpc ▸ nextPc_toNat s, hrest⟩

end

section
/-! PROOF. The address register and the memory instructions (spec/43_memory_ops.md R200 to R206): what an instruction does
that writes `I` alone, the decimal digits of a byte, and the register block in either direction. -/

namespace Sys2Proof.Machine

variable {s : State} {i : Instr}

/-! ### `I` alone (R201 to R203) -/

/-- An instruction that only writes `a` to `I` before `pc` advances. -/
theorem exec_writes_I {a : Word} (h : exec i s = .next ((s.setI a).setPc s.nextPc)) :
    ∃ t, exec i s = .next t ∧ t.I = a ∧ t.pc.toNat = (s.pc.toNat + 2) % 2 ^ 16 ∧ KeepsAllBut [.I, .pc] s t :=
  ⟨_, h, rfl, nextPc_toNat s, ((KeepsAllBut.refl _ s).setI a).setPc _⟩

/-- The glyph table lies below the load offset, so that the address of a glyph fits a word (R203). -/
theorem glyphAddress_toNat (h : s.config.Valid) (k : Nibble) :
    (BitVec.ofNat 16 (s.config.fontBase.toNat + 5 * k.toNat)).toNat = s.config.fontBase.toNat + 5 * k.toNat := by
  have hfont : s.config.fontBase.toNat + 80 ≤ s.config.loadOffset.toNat := h.1
  rw [BitVec.toNat_ofNat, Nat.mod_eq_of_lt]
  omega

/-! ### Three bytes from `I` on (R200, R204) -/

/-- Two places of a block that is no longer than memory reduce to the same address only when they are the same. -/
theorem effective_mod_eq_iff {j k : Nat} (hj : j < s.config.memSize) (hk : k < s.config.memSize) :
    s.effective j % s.config.memSize = s.effective k % s.config.memSize ↔ j = k := by
  refine ⟨fun h => ?_, fun h => by rw [h]⟩
  have hjk : j ≡ k [MOD s.config.memSize] := Nat.ModEq.add_left_cancel' s.I.toNat h
  exact hjk.eq_of_lt_of_lt hj hk

/-- The state with three bytes stored at `I`, `I + 1` and `I + 2`. -/
def State.storeThree (s : State) (bytes : Byte × Byte × Byte) : State :=
  ((s.memWrite (s.effective 0) bytes.1).memWrite (s.effective 1) bytes.2.1).memWrite (s.effective 2) bytes.2.2

/-- Each of the three bytes is read back: in a memory of three bytes or more no store overwrites another. -/
theorem storeThree_memRead (h : 3 ≤ s.config.memSize) (bytes : Byte × Byte × Byte) :
    (s.storeThree bytes).memRead (s.effective 0) = bytes.1 ∧
      (s.storeThree bytes).memRead (s.effective 1) = bytes.2.1 ∧
      (s.storeThree bytes).memRead (s.effective 2) = bytes.2.2 := by
  have hmod {j k : Nat} (hj : j < 3) (hk : k < 3) := effective_mod_eq_iff (s := s) (hj.trans_le h) (hk.trans_le h)
  simp [State.storeThree, State.memWrite_memRead, hmod]

theorem storeThree_memKept (bytes : Byte × Byte × Byte) : MemKeptButBlockAtI 3 s (s.storeThree bytes) := by
  intro a ha
  simp [State.storeThree, State.memWrite_memRead, ha]

theorem execLdB_eq (x : RegIdx) :
    exec (.ldB x) s = .next ((s.storeThree (bcdDigits (s.reg x))).setPc s.nextPc) := rfl

/-- The three digits as numbers: each is below 256, and so is not truncated (R204). -/
theorem bcdDigits_toNat (v : Byte) :
    (bcdDigits v).1.toNat = v.toNat / 100 ∧ (bcdDigits v).2.1.toNat = v.toNat / 10 % 10 ∧
      (bcdDigits v).2.2.toNat = v.toNat % 10 := by
  simp only [bcdDigits, BitVec.toNat_ofNat]
  omega

/-! ### The register block (R205, R206) -/

theorem execLdMemVx_eq (x : RegIdx) :
    exec (.ldMemVx x) s = .next (((s.storeRegs (x.toNat + 1)).incrementI x).setPc s.nextPc) := rfl

theorem execLdVxMem_eq (x : RegIdx) :
    exec (.ldVxMem x) s = .next (((s.loadRegs (x.toNat + 1)).incrementI x).setPc s.nextPc) := rfl

end Sys2Proof.Machine

open Sys2Proof Sys2Proof.Machine

/-- Settles O45: the three digits are stored at three addresses that differ, since memory has more than three bytes. -/
theorem storeDecimalDigits : Obligations.StoreDecimalDigits := by
  intro x s hvalid
  have hsize : 3 ≤ s.config.memSize := by simpa using block_le_memSize hvalid 2
  obtain ⟨hhundreds, htens, hunits⟩ := bcdDigits_toNat (s.reg x)
  obtain ⟨hfirst, hsecond, hthird⟩ := storeThree_memRead hsize (bcdDigits (s.reg x))
  refine ⟨decode_encode (.ldB x), _, execLdB_eq x, ?_, ?_, ?_, nextPc_toNat s, storeThree_memKept _,
    exec_keepsAllBut (execLdB_eq x)⟩
  · rw [State.setPc_memRead, hfirst, hhundreds]
  · rw [State.setPc_memRead, hsecond, htens]
  · rw [State.setPc_memRead, hthird, hunits]

/-- Settles O46: the block is stored without wrapping onto itself, and then `I` is moved or not. -/
theorem storeRegisterBlock : Obligations.StoreRegisterBlock := by
  intro x s hvalid
  refine ⟨decode_encode (.ldMemVx x), _, execLdMemVx_eq x, fun k hk => ?_, ?_, nextPc_toNat s, fun a ha => ?_, ?_⟩
  · exact execLdMemVx_memRead hvalid (execLdMemVx_eq x) hk rfl
  · simpa using incrementI_I_toNat (s.storeRegs (x.toNat + 1)) x (by simpa using hvalid)
  · rw [State.setPc_memRead, incrementI_memRead, storeRegs_memRead_ne s _ a ha]
  · exact (((KeepsAllBut.refl _ s).storeRegs _).incrementI x).setPc _

/-- Settles O47: the registers of the block are loaded, and then `I` is moved or not. -/
theorem loadRegisterBlock : Obligations.LoadRegisterBlock := by
  intro x s hvalid
  refine ⟨decode_encode (.ldVxMem x), _, execLdVxMem_eq x, fun k => ?_, ?_, nextPc_toNat s, ?_⟩
  · rw [State.setPc_reg, incrementI_reg, loadRegs_reg s _ (Nat.succ_le_of_lt x.isLt)]
    simp only [Nat.lt_succ_iff]
  · simpa using incrementI_I_toNat (s.loadRegs (x.toNat + 1)) x (by simpa using hvalid)
  · exact (((KeepsAllBut.refl _ s).loadRegs _).incrementI x).setPc _

/-- Settles O42: the instruction writes its zero-extended address to `I` and nothing else. -/
theorem loadAddressWritesI : Obligations.LoadAddressWritesI := by
  intro nnn s
  obtain ⟨t, ht, hI, hrest⟩ := exec_writes_I (i := .ldI nnn) (s := s) rfl
  exact ⟨decode_encode (.ldI nnn), t, ht, hI ▸ absoluteAddress_toNat nnn, hrest⟩

/-- Settles O43: the instruction writes the reduced sum to `I` and nothing else. -/
theorem addToAddressWrapsAtMemorySize : Obligations.AddToAddressWrapsAtMemorySize := by
  intro x s hvalid
  obtain ⟨t, ht, hI, hrest⟩ := exec_writes_I (i := .addI x) (s := s) rfl
  exact ⟨decode_encode (.addI x), t, ht, hI ▸ advancedI_toNat s _ hvalid, hrest⟩

/-- Settles O44: the instruction writes the glyph's address to `I` and nothing else. -/
theorem loadGlyphAddress : Obligations.LoadGlyphAddress := by
  intro x s hvalid
  obtain ⟨t, ht, hI, hrest⟩ := exec_writes_I (i := .ldF x) (s := s) rfl
  refine ⟨decode_encode (.ldF x), t, ht, ?_, hrest⟩
  rw [hI, glyphAddress_toNat hvalid, lowNibble_toNat]

end

section
/-! PROOF. Display, keys, timers and random (spec/44_io.md R230 to R240): where a sprite falls on the framebuffer, what
`DRW` does to the pixels and to `VF`, and what the other instructions of the family write. -/

namespace Sys2Proof.Machine

variable {s t : State} {i : Instr} {x y : RegIdx} {n : Nibble}

/-! ### A sprite that is no larger than the framebuffer falls on no pixel twice (R231) -/

/-- Two offsets below the modulus that wrap to the same place are the same. -/
theorem eq_of_add_mod_eq {a j k m : Nat} (hj : j < m) (hk : k < m) (h : (a + j) % m = (a + k) % m) : j = k :=
  (Nat.ModEq.add_left_cancel' a h).eq_of_lt_of_lt hj hk

theorem mem_rowPixels_iff {x0 y0 r : Nat} {p : Nat × Nat} :
    p ∈ s.rowPixels x0 y0 r ↔
      ∃ c < 8, (s.spriteRow r).getLsbD (7 - c) = true ∧ ((x0 + c) % s.config.fbW, (y0 + r) % s.config.fbH) = p := by
  simp only [State.rowPixels, List.mem_filterMap, List.mem_range, Option.ite_none_right_eq_some, Option.some.injEq]

theorem rowPixels_nodup (x0 y0 r : Nat) (hW : 8 ≤ s.config.fbW) : (s.rowPixels x0 y0 r).Nodup := by
  refine List.pairwise_filterMap.2 (List.nodup_range.pairwise_of_forall_ne fun c hc d hd hne p hp q hq hpq => hne ?_)
  rw [Option.ite_none_right_eq_some] at hp hq
  have hcolumn : (x0 + c) % s.config.fbW = (x0 + d) % s.config.fbW :=
    congrArg Prod.fst (Option.some.inj (hp.2.trans ((congrArg some hpq).trans hq.2.symm)))
  exact eq_of_add_mod_eq ((List.mem_range.1 hc).trans_le hW) ((List.mem_range.1 hd).trans_le hW) hcolumn

/-- Two rows of the sprite have no pixel in common. -/
theorem rowPixels_disjoint {q r : Nat} (x0 y0 : Nat) (hq : q < s.config.fbH) (hr : r < s.config.fbH) (hne : q ≠ r) :
    (s.rowPixels x0 y0 q).Disjoint (s.rowPixels x0 y0 r) := by
  intro p hpq hpr
  obtain ⟨_, -, -, rfl⟩ := mem_rowPixels_iff.1 hpq
  obtain ⟨_, -, -, hp⟩ := mem_rowPixels_iff.1 hpr
  exact hne (eq_of_add_mod_eq hq hr (congrArg Prod.snd hp).symm)

theorem spritePixels_nodup (x y : RegIdx) (hW : 8 ≤ s.config.fbW) (hH : n.toNat ≤ s.config.fbH) :
    (s.spritePixels x y n).Nodup := by
  refine List.nodup_flatMap.2 ⟨fun r _ => rowPixels_nodup _ _ r hW, ?_⟩
  refine List.nodup_range.pairwise_of_forall_ne fun q hq r hr hne => ?_
  exact rowPixels_disjoint _ _ ((List.mem_range.1 hq).trans_le hH) ((List.mem_range.1 hr).trans_le hH) hne

theorem spriteHits_le_one (x y : RegIdx) (hW : 8 ≤ s.config.fbW) (hH : n.toNat ≤ s.config.fbH) (px py : Nat) :
    s.spriteHits x y n px py ≤ 1 := by
  rw [← spritePixels_count]
  exact List.nodup_iff_count_le_one.1 (spritePixels_nodup x y hW hH) _

/-- Where a sprite falls depends on the configuration, `I`, memory and the two coordinates alone. -/
theorem spriteHits_congr {u : State} (hconfig : u.config = s.config) (hI : u.I = s.I)
    (hmem : ∀ a, u.memRead a = s.memRead a) (hx : u.reg x = s.reg x) (hy : u.reg y = s.reg y) :
    u.spriteHits x y n = s.spriteHits x y n := by
  funext px py
  simp only [State.spriteHits, State.spriteBit, hconfig, hI, hmem, hx, hy]

/-! ### The flag (R22) -/

theorem flagByte_zero_or_one (b : Bool) : flagByte b = 0 ∨ flagByte b = 1 := by
  cases b
  · exact .inl rfl
  · exact .inr rfl

theorem flagByte_eq_one_iff {b : Bool} : flagByte b = 1 ↔ b = true := by cases b <;> decide

/-! ### `DRW` (R231 to R233) -/

/-- A toggle of the draw meets a lit pixel at this place: the pixel was lit and is hit, or it is hit twice (R232). -/
def State.CollidesAt (s : State) (x y : RegIdx) (n : Nibble) (px py : Nat) : Prop :=
  (s.pixel px py = true ∧ 1 ≤ s.spriteHits x y n px py) ∨ 2 ≤ s.spriteHits x y n px py

/-- A collision happens on the framebuffer. -/
theorem exists_collidesAt_iff (hvalid : s.config.Valid) :
    (∃ px py, s.CollidesAt x y n px py) ↔
      ∃ px < s.config.fbW, ∃ py < s.config.fbH, s.CollidesAt x y n px py := by
  refine ⟨fun ⟨px, py, hcollides⟩ => ?_, fun ⟨px, _, py, _, hcollides⟩ => ⟨px, py, hcollides⟩⟩
  have hhit : 1 ≤ s.spriteHits x y n px py := hcollides.elim And.right (le_trans (by decide))
  obtain ⟨hpx, hpy⟩ := spriteHits_inside s x y n hvalid hhit
  exact ⟨px, hpx, py, hpy, hcollides⟩

/-- Everything `DRW` does to the framebuffer and to `VF`. -/
theorem exec_drw_draws (hvalid : s.config.Valid) (hshaped : FramebufferShaped s.config s.fb)
    (h : exec (.drw x y n) s = .next t) :
    FramebufferShaped s.config t.fb ∧
    (∀ px py, t.pixel px py = (s.pixel px py ^^ decide (s.spriteHits x y n px py % 2 = 1))) ∧
    (t.reg vf = 0 ∨ t.reg vf = 1) ∧
    (t.reg vf = 1 ↔ ∃ px < s.config.fbW, ∃ py < s.config.fbH, s.CollidesAt x y n px py) := by
  obtain rfl := Host.Outcome.next.inj h
  obtain ⟨hfb, hpixel, hhit⟩ := drawPixels_sprite s x y n hvalid hshaped
  refine ⟨hfb, hpixel, ?_, ?_⟩
  · rw [State.setPc_reg, State.setReg_reg_self]
    exact flagByte_zero_or_one _
  · rw [State.setPc_reg, State.setReg_reg_self, flagByte_eq_one_iff, hhit]
    exact exists_collidesAt_iff hvalid

/-- A pixel that no more than one bit of the sprite falls on collides exactly when the draw turns it off. -/
theorem collidesAt_iff_turned_off {px py : Nat} (hhits : s.spriteHits x y n px py ≤ 1)
    (hpixel : t.pixel px py = (s.pixel px py ^^ decide (s.spriteHits x y n px py % 2 = 1))) :
    s.CollidesAt x y n px py ↔ s.pixel px py = true ∧ t.pixel px py = false := by
  obtain hzero | hone : s.spriteHits x y n px py = 0 ∨ s.spriteHits x y n px py = 1 := by omega
  · simp [State.CollidesAt, hpixel, hzero]
  · simp [State.CollidesAt, hpixel, hone]

/-- A pixel that a draw lights is one that the sprite hits. -/
theorem spriteHits_pos_of_lit {px py : Nat}
    (hpixel : t.pixel px py = (s.pixel px py ^^ decide (s.spriteHits x y n px py % 2 = 1)))
    (hunlit : s.pixel px py = false) (hlit : t.pixel px py = true) : 1 ≤ s.spriteHits x y n px py := by
  have hodd : s.spriteHits x y n px py % 2 = 1 := by simpa [hunlit, hlit] using hpixel
  omega

/-! ### A key press while the core waits (R283) -/

theorem pressKey_of_waiting {r : RegIdx} (k : Nibble) (hrun : s.run = .waitingForKey r) :
    s.pressKey k = ((s.setReg r (k.setWidth 8)).setPc s.nextPc).setRun .running := by
  rw [State.pressKey, hrun]

theorem step_keyPress_of_waiting {r : RegIdx} {k : Nibble} {rest : List Move} (hrun : s.run = .waitingForKey r)
    (hmove : s.agenda = .keyPress k :: rest) :
    step s = .next ((((s.setAgenda rest).setReg r (k.setWidth 8)).setPc s.nextPc).setRun .running) := by
  rw [step, hrun, takeMove, hmove]
  exact congrArg Host.Outcome.next (pressKey_of_waiting k hrun)

/-! ### The timers (R238, R239) -/

/-- An instruction that only writes `v` to the delay timer before `pc` advances. -/
theorem exec_writes_DT {v : Byte} (h : exec i s = .next ((s.setDT v).setPc s.nextPc)) :
    ∃ t, exec i s = .next t ∧ t.DT = v ∧ t.pc.toNat = (s.pc.toNat + 2) % 2 ^ 16 ∧ KeepsAllBut [.DT, .pc] s t :=
  ⟨_, h, rfl, nextPc_toNat s, ((KeepsAllBut.refl _ s).setDT v).setPc _⟩

/-- An instruction that only writes `v` to the sound timer before `pc` advances. -/
theorem exec_writes_ST {v : Byte} (h : exec i s = .next ((s.setST v).setPc s.nextPc)) :
    ∃ t, exec i s = .next t ∧ t.ST = v ∧ t.pc.toNat = (s.pc.toNat + 2) % 2 ^ 16 ∧ KeepsAllBut [.ST, .pc] s t :=
  ⟨_, h, rfl, nextPc_toNat s, ((KeepsAllBut.refl _ s).setST v).setPc _⟩

/-! ### `RND` (R240) -/

theorem exec_rnd_eq (x : RegIdx) (nn : Byte) :
    exec (.rnd x nn) s = .next ((s.countDraw.setReg x (Config.random8 s.draws &&& nn)).setPc s.nextPc) := rfl

end Sys2Proof.Machine

open Sys2Proof Sys2Proof.Machine

/-- Settles O50: the laws of drawing give the pixels and `VF`, and a collision lies on the framebuffer. -/
theorem drawTogglesTheSpritePixels : Obligations.DrawTogglesTheSpritePixels := by
  intro x y n s hvalid hshaped
  obtain ⟨t, ht⟩ := exec_next s (.drw x y n)
  obtain ⟨hfb, hpixel, hvf, hcollision⟩ := exec_drw_draws hvalid hshaped ht
  refine ⟨decode_encode (.drw x y n), t, ht, hfb, fun px _ py _ => hpixel px py, hvf, hcollision, ?_, fun r hr => ?_,
    exec_keepsAllBut ht⟩
  · obtain rfl := Host.Outcome.next.inj ht
    exact nextPc_toNat s
  · exact (exec_regsWrittenAsNamed ht).1 r rfl fun hvf => absurd hvf (List.ne_of_not_mem_cons hr)

/-- Settles O51: on so large a framebuffer no pixel is hit twice, so that a collision is a lit pixel hit once. -/
theorem collisionIsAPixelTurnedOff : Obligations.CollisionIsAPixelTurnedOff := by
  intro x y n s t hvalid hshaped hW hH ht
  obtain ⟨-, hpixel, hvf, hcollision⟩ := exec_drw_draws hvalid hshaped ht
  refine ⟨hvf, hcollision.trans ?_⟩
  simp only [collidesAt_iff_turned_off (spriteHits_le_one x y hW hH _ _) (hpixel _ _)]

/-- Settles O52: both draws toggle each pixel equally often, and a pixel that the first one lit is met lit by the
second. -/
theorem drawingTwiceRestoresTheFramebuffer : Obligations.DrawingTwiceRestoresTheFramebuffer := by
  intro x y n s t u hvalid hshaped ht hfb hconfig hI hmem hx hy
  obtain ⟨htfb, htpixel, -, -⟩ := exec_drw_draws hvalid hshaped ht
  obtain ⟨v, hv⟩ := exec_next u (.drw x y n)
  have hupixel (px py : Nat) : u.pixel px py = t.pixel px py := congrArg (Framebuffer.pixel · px py) hfb
  obtain ⟨hvfb, hvpixel, -, hcollision⟩ := exec_drw_draws (hconfig ▸ hvalid) (hconfig ▸ hfb ▸ htfb) hv
  rw [hconfig] at hvfb hcollision
  rw [spriteHits_congr hconfig hI hmem hx hy] at hvpixel
  refine ⟨v, hv, fb_ext hvfb hshaped fun px _ py _ => ?_, fun ⟨px, hpx, py, hpy, hunlit, hlit⟩ => ?_⟩
  · change v.pixel px py = s.pixel px py
    rw [hvpixel, hupixel, htpixel, Bool.xor_assoc, Bool.xor_self, Bool.xor_false]
  · have hhit := spriteHits_pos_of_lit (htpixel px py) hunlit hlit
    rw [← spriteHits_congr hconfig hI hmem hx hy] at hhit
    exact hcollision.2 ⟨px, hpx, py, hpy, .inl ⟨(hupixel px py).trans hlit, hhit⟩⟩

/-- Settles O49: the instruction writes the clear framebuffer and nothing else. -/
theorem clearScreenClearsEveryPixel : Obligations.ClearScreenClearsEveryPixel := by
  intro s
  obtain ⟨t, ht⟩ := exec_next s .cls
  refine ⟨decode_encode .cls, t, ht, ?_⟩
  have hkept := exec_keepsAllBut ht
  obtain rfl := Host.Outcome.next.inj ht
  exact ⟨clear_shaped s.config, clear_pixel s.config, nextPc_toNat s, hkept⟩

/-- Settles O53: each instruction is a skip on the key that the low nibble of `Vx` names. -/
theorem skipOnKey : Obligations.SkipOnKey := by
  intro x s k hk
  obtain rfl : lowNibble (s.reg x) = k := BitVec.eq_of_toNat_eq ((lowNibble_toNat _).trans hk.symm)
  refine ⟨decode_encode (.skp x), decode_encode (.sknp x), exec_skips rfl, ?_⟩
  simpa only [Bool.not_eq_true', ← Bool.not_eq_true, ite_not] using exec_skips (i := .sknp x) (s := s) rfl

/-- Settles O54: the core waits, and a press completes the instruction at the unchanged `pc`. -/
theorem waitForKeySuspends : Obligations.WaitForKeySuspends := by
  intro x s
  refine ⟨decode_encode (.ldVxK x), s.setRun (.waitingForKey x), rfl, rfl, (KeepsAllBut.refl _ s).setRun _,
    fun k rest => ⟨_, step_keyPress_of_waiting rfl rfl, ?_, nextPc_toNat s, rfl⟩⟩
  rw [State.setRun_reg, State.setPc_reg, State.setReg_reg_self, BitVec.toNat_setWidth_of_le (by decide)]

/-- Settles O55: each instruction writes its byte to one register or one timer and nothing else. -/
theorem timerMoves : Obligations.TimerMoves :=
  fun x _ => ⟨decode_encode (.ldVxDt x), decode_encode (.ldDtVx x), decode_encode (.ldStVx x),
    exec_writes_reg rfl, exec_writes_DT rfl, exec_writes_ST rfl⟩

/-- Settles O56: the byte written is masked, whatever byte was drawn, and the drawing is counted. -/
theorem randomIsMasked : Obligations.RandomIsMasked := by
  intro x nn s
  refine ⟨decode_encode (.rnd x nn), _, exec_rnd_eq x nn, State.setReg_reg_self _ x _, fun b hb => ?_, rfl,
    nextPc_toNat s, fun r hr => ?_, exec_keepsAllBut (exec_rnd_eq x nn)⟩
  · rw [State.setPc_reg, State.setReg_reg_self, BitVec.getLsbD_and, hb, Bool.and_false]
  · exact State.setReg_reg_ne _ _ (List.ne_of_not_mem_cons hr)

end

section
/-! PROOF. Halts of a cycle, ticks, key snapshots and key presses, and runs of a core that waits
(spec/60_exceptions.md R262 to R285). -/

namespace Sys2Proof.Machine

variable {s t : State} {parts : List Part}

/-! ### What the moves of the agents keep (R262, R276, R281, R283) -/

namespace KeepsAllBut

theorem trans {u : State} (hst : KeepsAllBut parts s t) (htu : KeepsAllBut parts t u) : KeepsAllBut parts s u :=
  fun p hp => (hst p hp).trans (htu p hp)

theorem setKeys (h : KeepsAllBut parts s t) (keys : Vector Bool 16) (hkeys : .keys ∈ parts := by simp) :
    KeepsAllBut parts s (t.setKeys keys) := h.update hkeys

theorem setAgenda (h : KeepsAllBut parts s t) (moves : List Move) (hagenda : .agenda ∈ parts := by simp) :
    KeepsAllBut parts s (t.setAgenda moves) := h.update hagenda

theorem tick (h : KeepsAllBut parts s t) (hDT : .DT ∈ parts := by simp) (hST : .ST ∈ parts := by simp) :
    KeepsAllBut parts s t.tick := (h.setDT _ hDT).setST _ hST

end KeepsAllBut

theorem pressKey_keepsAllBut (s : State) (k : Nibble) : KeepsAllBut [.V, .pc, .run] s (s.pressKey k) := by
  have hs := KeepsAllBut.refl [.V, .pc, .run] s
  unfold State.pressKey
  split
  · exact ((hs.setReg _ _).setPc _).setRun _
  · exact hs
  · exact hs

theorem pressKey_of_running (k : Nibble) (hrun : s.run = .running) : s.pressKey k = s := by
  rw [State.pressKey, hrun]

/-! ### The step of each move (R263, R290) -/

/-- A next move that is not the core's stands at the head of the agenda. -/
theorem agenda_eq_cons {move : Move} (h : s.nextMove = move) (hne : move ≠ .cycle) :
    s.agenda = move :: s.agenda.tail := by
  rw [State.nextMove] at h
  cases hagenda : s.agenda <;> simp_all

theorem step_of_halted {reason : HaltReason} (hrun : s.run = .halted reason) : step s = .fault (.halted reason) := by
  rw [step, hrun]

theorem step_ne_next_of_halted {reason : HaltReason} (hrun : s.run = .halted reason) (t : State) : step s ≠ .next t :=
  fun h => (step_cases s h).1 reason hrun

theorem step_eq_takeMove (hrun : ∀ reason, s.run ≠ .halted reason) : step s = takeMove s := by
  rw [step]
  cases h : s.run with
  | running | waitingForKey r => rfl
  | halted reason => exact absurd h (hrun reason)

theorem step_tick {rest : List Move} (hrun : ∀ reason, s.run ≠ .halted reason) (hmove : s.agenda = .tick :: rest) :
    step s = .next (s.setAgenda rest).tick := by
  rw [step_eq_takeMove hrun, takeMove, hmove]

theorem step_keySnapshot {keys : Vector Bool 16} {rest : List Move} (hrun : ∀ reason, s.run ≠ .halted reason)
    (hmove : s.agenda = .keySnapshot keys :: rest) : step s = .next ((s.setAgenda rest).snapshotKeys keys) := by
  rw [step_eq_takeMove hrun, takeMove, hmove]

theorem step_keyPress_of_running {k : Nibble} {rest : List Move} (hrun : s.run = .running)
    (hmove : s.agenda = .keyPress k :: rest) : step s = .next (s.setAgenda rest) := by
  rw [step_eq_takeMove (by simp [hrun]), takeMove, hmove]
  exact congrArg Host.Outcome.next (pressKey_of_running k hrun)

theorem step_cycle_of_waiting {r : RegIdx} (hrun : s.run = .waitingForKey r) (hmove : s.nextMove = .cycle) :
    step s = .next (s.setAgenda s.agenda.tail) := by
  rw [step_core s (by simp [hrun]) hmove, coreTurn, State.setAgenda_run, hrun]

theorem step_cycle_of_running (hrun : s.run = .running) (hmove : s.nextMove = .cycle) :
    step s = cycle (s.setAgenda s.agenda.tail) := by
  rw [step_core s (by simp [hrun]) hmove, coreTurn, State.setAgenda_run, hrun]

/-! ### A cycle that halts (R262, R266, R267) -/

theorem cycle_of_fetch_none (hfetch : s.fetch = none) : cycle s = .next (s.haltWith .fetchOutOfBounds) := by
  rw [cycle, hfetch]

theorem cycle_of_unknownOpcode {w opcode : Word} (hfetch : s.fetch = some w)
    (hdecode : decode w = .unknownOpcode opcode) : cycle s = .next (s.haltWith (.decodeFailure opcode s.pc)) := by
  simp only [cycle, hfetch, hdecode]

/-- A cycle that halts changes the run state, and the step takes its move off the agenda. -/
theorem step_halts {reason : HaltReason} (hrun : s.run = .running) (hmove : s.nextMove = .cycle)
    (h : cycle (s.setAgenda s.agenda.tail) = .next ((s.setAgenda s.agenda.tail).haltWith reason)) :
    ∃ t, step s = .next t ∧ t.run = .halted reason ∧ t.agenda = s.agenda.tail ∧ KeepsAllBut [.run, .agenda] s t :=
  ⟨_, (step_cycle_of_running hrun hmove).trans h, rfl, rfl, ((KeepsAllBut.refl _ s).setAgenda _).haltWith _⟩

/-! ### A core that waits (R279, R285) -/

theorem forall_keyPress_notMem_take_succ {k : Nat} :
    (∀ key, Move.keyPress key ∉ s.agenda.take (k + 1)) ↔
      (∀ key, s.nextMove ≠ .keyPress key) ∧ ∀ key, Move.keyPress key ∉ s.agenda.tail.take k := by
  rw [State.nextMove]
  cases s.agenda with
  | nil => simp
  | cons move rest => simp [forall_and, eq_comm]

/-- Any move but a key press leaves a waiting core as it stands. -/
theorem step_of_waiting {r : RegIdx} (hrun : s.run = .waitingForKey r) (hmove : ∀ key, s.nextMove ≠ .keyPress key) :
    ∃ t, step s = .next t ∧ t.agenda = s.agenda.tail ∧ KeepsAllBut [.DT, .ST, .keys, .agenda] s t := by
  have hkept := (KeepsAllBut.refl [.DT, .ST, .keys, .agenda] s).setAgenda s.agenda.tail
  have hnotHalted : ∀ reason, s.run ≠ .halted reason := by simp [hrun]
  cases hnext : s.nextMove with
  | cycle => exact ⟨_, step_cycle_of_waiting hrun hnext, rfl, hkept⟩
  | tick => exact ⟨_, step_tick hnotHalted (agenda_eq_cons hnext nofun), rfl, hkept.tick⟩
  | keySnapshot keys => exact ⟨_, step_keySnapshot hnotHalted (agenda_eq_cons hnext nofun), rfl, hkept.setKeys keys⟩
  | keyPress key => exact absurd hnext (hmove key)

/-! ### The timers over a run (R276, R277) -/

/-- The core's turn writes the run state and what the instruction that it executes may write. -/
theorem coreTurn_unchanged {p : Part} (h : coreTurn s = .next t) (hp : p ≠ .run)
    (hwrite : ∀ w i, s.run = .running → s.fetch = some w → decode w = .instr i → p ∉ mayWrite s.config i) :
    Unchanged s t p := by
  have hs := KeepsAllBut.refl [.run] s
  have hp' : p ∉ [Part.run] := mt List.mem_singleton.1 hp
  obtain ⟨-, rfl⟩ | ⟨hrun, ⟨-, rfl⟩ | ⟨_, _, -, -, rfl⟩ | ⟨w, i, hfetch, hdecode, hexec⟩⟩ := coreTurn_cases s h
  · exact hs p hp'
  · exact hs.haltWith _ (by simp) p hp'
  · exact hs.haltWith _ (by simp) p hp'
  · exact exec_keepsAllBut hexec p (hwrite w i hrun hfetch hdecode)

theorem agenda_notMem_mayWrite (c : Config) (i : Instr) : .agenda ∉ mayWrite c i := by
  cases i <;> simp [mayWrite]

/-- Every step takes its move off the agenda. -/
theorem step_agenda (h : step s = .next t) : t.agenda = s.agenda.tail := by
  obtain ⟨-, ⟨-, hturn⟩ | ⟨rest, hmove, rfl⟩ | ⟨keys, rest, hmove, rfl⟩ | ⟨k, rest, hmove, rfl⟩⟩ := step_cases s h
  · exact coreTurn_unchanged (p := .agenda) hturn (by decide) fun _ i _ _ _ => agenda_notMem_mayWrite _ i
  · rw [hmove]; rfl
  · rw [hmove]; rfl
  · rw [hmove]; exact pressKey_keepsAllBut (s.setAgenda rest) k .agenda (by decide)

theorem nextInstr_eq_some {w : Word} {i : Instr} (hrun : s.run = .running) (hmove : s.nextMove = .cycle)
    (hfetch : s.fetch = some w) (hdecode : decode w = .instr i) : s.nextInstr = some i := by
  simp only [State.nextInstr, hrun, hmove, hfetch, hdecode, and_self, if_true]

/-- A step that is no tick writes what a key press, a key snapshot or the instruction that it executes may write. -/
theorem step_tick_or_unchanged (h : step s = .next t) :
    (s.nextMove = .tick ∧ t = (s.setAgenda s.agenda.tail).tick) ∨
    (s.nextMove ≠ .tick ∧ ∀ p ∉ [Part.V, .pc, .keys, .run, .agenda],
      (∀ i, s.nextInstr = some i → p ∉ mayWrite s.config i) → Unchanged s t p) := by
  have hkept (moves : List Move) := (KeepsAllBut.refl [.V, .pc, .keys, .run, .agenda] s).setAgenda moves
  obtain ⟨-, ⟨hcycle, hturn⟩ | ⟨rest, hmove, rfl⟩ | ⟨keys, rest, hmove, rfl⟩ | ⟨k, rest, hmove, rfl⟩⟩ := step_cases s h
  · refine .inr ⟨by simp [hcycle], fun p hp hwrite => (hkept s.agenda.tail p hp).trans ?_⟩
    refine coreTurn_unchanged hturn (fun hpr => hp (by simp [hpr])) fun w i hrun hfetch hdecode => ?_
    exact hwrite i (nextInstr_eq_some hrun hcycle hfetch hdecode)
  · exact .inl ⟨by simp [State.nextMove, hmove], by simp [hmove]⟩
  · exact .inr ⟨by simp [State.nextMove, hmove], fun p hp _ => (hkept rest).setKeys keys (by simp) p hp⟩
  · refine .inr ⟨by simp [State.nextMove, hmove], fun p hp _ => (hkept rest p hp).trans ?_⟩
    exact pressKey_keepsAllBut _ k p (by simp_all)

/-- Each step, unless it executes an instruction that sets the timer, takes 1 from it at a tick and else leaves it. -/
def CountsDown (timer : State → Byte) (sets : Instr → Bool) : Prop :=
  ∀ s t : State, step s = .next t → (∀ i, s.nextInstr = some i → sets i = false) →
    timer t = if s.nextMove = .tick then timerDown (timer s) else timer s

theorem delayTimer_countsDown : CountsDown State.DT setsDelayTimer := by
  intro s t h hset
  obtain ⟨htick, rfl⟩ | ⟨hother, hkept⟩ := step_tick_or_unchanged h
  · rw [if_pos htick]; rfl
  · rw [if_neg hother]
    refine hkept .DT (by decide) fun i hi hwrite => ?_
    obtain ⟨x, rfl⟩ := mayWrite_DT hwrite
    exact nomatch hset _ hi

theorem soundTimer_countsDown : CountsDown State.ST setsSoundTimer := by
  intro s t h hset
  obtain ⟨htick, rfl⟩ | ⟨hother, hkept⟩ := step_tick_or_unchanged h
  · rw [if_pos htick]; rfl
  · rw [if_neg hother]
    refine hkept .ST (by decide) fun i hi hwrite => ?_
    obtain ⟨x, rfl⟩ := mayWrite_ST hwrite
    exact nomatch hset _ hi

theorem NoneExecuted.first {sets : Instr → Bool} {k : Nat} (h : NoneExecuted sets (k + 1) s) :
    ∀ i, s.nextInstr = some i → sets i = false :=
  h 0 k.succ_pos s (run_zero s)

theorem NoneExecuted.rest {sets : Instr → Bool} {k : Nat} (h : NoneExecuted sets (k + 1) s) (hstep : step s = .next t) :
    NoneExecuted sets k t :=
  fun j hj u hu => h (j + 1) (Nat.succ_lt_succ hj) u ((run_next s j hstep).trans hu)

/-- The ticks of a run are that of its first step, if it is one, and those of the rest. -/
theorem count_tick_take_succ (s : State) (k : Nat) :
    (s.agenda.take (k + 1)).count .tick =
      (if s.nextMove = .tick then 1 else 0) + (s.agenda.tail.take k).count .tick := by
  rw [State.nextMove]
  cases s.agenda with
  | nil => simp
  | cons move rest => simp [List.count_cons, Nat.add_comm]

/-- A timer that counts its ticks down falls over a run by the ticks of the run, not below 0. -/
theorem CountsDown.run {timer : State → Byte} {sets : Instr → Bool} (h : CountsDown timer sets) :
    ∀ {k : Nat} {s t : State}, Host.Core.run core k s = .next t → NoneExecuted sets k s →
      (timer t).toNat = (timer s).toNat - (s.agenda.take k).count .tick
  | 0, s, t, hrun, _ => by
    obtain rfl := Host.Outcome.next.inj hrun
    rfl
  | k + 1, s, t, hrun, hnone => by
    obtain ⟨u, hstep, hrest⟩ := run_succ_inv s hrun
    have hfirst : (timer u).toNat = (timer s).toNat - if s.nextMove = .tick then 1 else 0 := by
      rw [h s u hstep hnone.first]
      split
      · exact timerDown_toNat _
      · rfl
    rw [h.run hrest (hnone.rest hstep), hfirst, step_agenda hstep, count_tick_take_succ, Nat.sub_sub]

end Sys2Proof.Machine

open Sys2Proof Sys2Proof.Machine

/-- Settles O16, by induction on the number of steps: each of them leaves the core waiting. -/
theorem waitingCoreStandsUntilAKeyPress : Obligations.WaitingCoreStandsUntilAKeyPress := by
  intro k
  induction k with
  | zero => exact fun s r _ _ => ⟨s, run_zero s, rfl, KeepsAllBut.refl _ s⟩
  | succ k ih =>
    intro s r hrun hnoPress
    obtain ⟨hmove, hnoPressLater⟩ := forall_keyPress_notMem_take_succ.1 hnoPress
    obtain ⟨u, hstep, hagenda, hkept⟩ := step_of_waiting hrun hmove
    obtain ⟨t, ht, htagenda, htkept⟩ := ih u r (Eq.trans (hkept .run (by decide)) hrun) (hagenda ▸ hnoPressLater)
    exact ⟨t, (run_next s k hstep).trans ht, by rw [htagenda, hagenda, List.drop_tail], hkept.trans htkept⟩

/-- Settles O17: each timer counts its ticks down at every step that does not set it. -/
theorem timersCountTheirTicks : Obligations.TimersCountTheirTicks := by
  intro k s t hrun
  refine ⟨fun hnone => ?_, fun hnone => ?_⟩
  · rw [delayTimer_countsDown.run hrun hnone]
    omega
  · rw [soundTimer_countsDown.run hrun hnone]
    omega

/-- Settles O9: the word fetched is the word at `pc`, which the decoder rejects since it selects no row. -/
theorem unassignedWordHalts : Obligations.UnassignedWordHalts := by
  intro s w hrun hmove hpc hword hrows
  exact step_halts hrun hmove (cycle_of_unknownOpcode (s := s.setAgenda s.agenda.tail) (fetch_eq_some s hpc hword)
    ((decodeAcceptsExactlyTheOpcodeMap w).2 hrows))

/-- Settles O8: there is no word to fetch. -/
theorem fetchBeyondMemoryHalts : Obligations.FetchBeyondMemoryHalts := by
  intro s hrun hmove hpc
  exact step_halts hrun hmove (cycle_of_fetch_none (fetch_beyond (s.setAgenda s.agenda.tail) hpc))

/-- Settles O10: the first step is the fault. -/
theorem haltedMachineHasNoStep : Obligations.HaltedMachineHasNoStep :=
  fun s _ k hrun => run_fault s k (step_of_halted hrun)

/-- Settles O12: the tick takes 1 from each timer, and a halted machine has no step. -/
theorem tickDecrementsBothTimers : Obligations.TickDecrementsBothTimers :=
  fun s rest hmove =>
    ⟨fun hrun => ⟨_, step_tick hrun hmove, timerDown_toNat s.DT, timerDown_toNat s.ST, rfl,
      ((KeepsAllBut.refl _ s).setAgenda rest).tick⟩,
    fun _ => step_ne_next_of_halted⟩

/-- Settles O13: the snapshot writes the key array only. -/
theorem keySnapshotReplacesKeys : Obligations.KeySnapshotReplacesKeys :=
  fun s keys rest hrun hmove =>
    ⟨_, step_keySnapshot hrun hmove, rfl, rfl, ((KeepsAllBut.refl _ s).setAgenda rest).setKeys keys⟩

/-- Settles O14: the press writes the waiting register, `pc` and the run state. -/
theorem keyPressCompletesTheWait : Obligations.KeyPressCompletesTheWait := by
  intro s r k rest hrun hmove
  refine ⟨_, step_keyPress_of_waiting hrun hmove, ?_, nextPc_toNat s, rfl, rfl,
    fun q hq => State.setReg_reg_ne _ _ (List.ne_of_not_mem_cons hq),
    ((((KeepsAllBut.refl _ s).setAgenda rest).setReg r _).setPc _).setRun _⟩
  rw [State.setRun_reg, State.setPc_reg, State.setReg_reg_self, BitVec.toNat_setWidth_of_le (by decide)]

/-- Settles O15: a running core lets the press pass, and a halted machine has no step. -/
theorem keyPressInRunningHasNoEffect : Obligations.KeyPressInRunningHasNoEffect :=
  fun s _ rest hmove =>
    ⟨fun hrun => ⟨_, step_keyPress_of_running hrun hmove, rfl, (KeepsAllBut.refl _ s).setAgenda rest⟩,
    fun _ => step_ne_next_of_halted⟩

end

section
/-! PROOF. Explicit reset (spec/70_reset_and_hazards.md R304): the configuration that a run leaves is the one it was
created with, so that the reset is the creation again. -/

namespace Sys2Proof.Machine

/-- The created state carries the configuration that it was created from. -/
theorem create_config {c : Config} {image : List Byte} {s : State} (h : create c image = .next s) : s.config = c := by
  obtain ⟨-, -, rfl⟩ := create_next_cases h
  rfl

/-- No run changes the configuration, since no step does (R5, R33). -/
theorem run_config {k : Nat} {s t : State} (h : Host.Core.run core k s = .next t) : t.config = s.config := by
  induction k generalizing s with
  | zero =>
    obtain rfl := Host.Outcome.next.inj h
    rfl
  | succ k ih =>
    obtain ⟨u, hstep, hrest⟩ := run_succ_inv s h
    exact (ih hrest).trans (configurationNeverChanges s u hstep)

end Sys2Proof.Machine

open Sys2Proof Sys2Proof.Machine

/-- Settles O24: reset creates the machine from the configuration that it holds, which the run has kept since creation. -/
theorem explicitResetRestoresCreation : Obligations.ExplicitResetRestoresCreation := by
  intro c image moves s t k hcreate hrun
  have hconfig : t.config = c :=
    calc t.config = (s.setAgenda moves).config := run_config hrun
      _ = s.config := State.setAgenda_config s moves
      _ = c := create_config hcreate
  rw [explicitReset, hconfig, hcreate]

end
